-- ==== Sys2Proof/Word.lean ====
section
/-!
DEFINITION. The words of the machine (spec/00_scope.md R9): a byte of memory or of an instruction, an address or
general register, and one 64-bit element of a packed operand.
-/

namespace Sys2Proof

/-- One byte. -/
abbrev Byte := BitVec 8

/-- An address, a general register, the instruction pointer: 64 bits (10_state.md R21, R23). -/
abbrev Word := BitVec 64

/-- One double-precision element: 64 bits (00_scope.md R7, R14). -/
abbrev Elem := BitVec 64

/-- `n` as a 64-bit word, modulo 2^64. -/
abbrev Word.ofNat (n : Nat) : Word := BitVec.ofNat 64 n

end Sys2Proof
end

