-- ==== Sys2Proof/Config.lean ====
section
/-!
DEFINITION. What the part fixes and the values the spec leaves open (spec/00_scope.md R7, R8 and its table of
parameters). A constant declared without a body is a free value: nothing can be proved of it.
-/

namespace Sys2Proof

/-- The operating modes (10_state.md R29, 60_exceptions.md R209). The instruction is valid in the last two; in the
first two every EVEX-encoded instruction raises #UD. -/
inductive Mode where
  | real          -- real-address mode
  | virtual8086   -- virtual-8086 mode
  | mode32        -- 32-bit protected mode and compatibility mode
  | mode64        -- 64-bit mode
  deriving DecidableEq, Repr

/-- The width of a linear address in 64-bit mode, the parameter LAW of 20_memory.md R59. -/
inductive LinearWidth where
  | bits48
  | bits57
  deriving DecidableEq, Repr

namespace Config

/-- MAXVL, the width of a vector register in bits (00_scope.md R8, D3). -/
abbrev maxvl : Nat := 512

/-- QNAN_INDEFINITE_F64 (41_element_numerics.md R166, D12). -/
def qnanIndefinite : Elem := 0xFFF8000000000000#64

/-- What RDX holds after reset: the spec says "processor signature" and gives no number (10_state.md R38).
DESIGN CHOICE 0, unsafe, log entry 5. -/
def processorSignature : Word := 0#64

/-- FREE VALUE, log entry 3: what a part's approximation answers for an element, before the limits the spec sets are
applied (41_element_numerics.md R171, R176). A function of the element alone, fixed for the part. -/
opaque rsqrt14Draw : Elem → Elem

/-- FREE VALUE, log entry 16: the bits of a page-fault code that depend on paging structures the spec does not
describe (60_exceptions.md R199), for a faulting address. -/
opaque pageFaultDraw : Word → BitVec 6

/-- FREE VALUE, log entry 32: the byte a launch puts at an address of which nothing has been said
(70_reset_and_hazards.md R231: never zero by default). -/
opaque launchDraw : Word → Byte

end Config

end Sys2Proof
end

