-- ==== Sys2Proof/Syntax/Operand.lean ====
section
/-!
DEFINITION. The operands of an instruction, as its encoding gives them (spec/30_encoding.md R80 to R100). Every bit of
an encoding that the table leaves free has a place here, also those that play no part in the meaning, so that an
instruction and its bytes determine each other.
-/

namespace Sys2Proof

/-- The number of a vector register: five bits, `R'‖R‖reg` or `X‖B‖rm` (30_encoding.md R88). -/
abbrev VecNum := BitVec 5

/-- The number of a general register: four bits, `B‖rm`, `B‖base` or `X‖index` (30_encoding.md R92, R93). -/
abbrev GprNum := BitVec 4

/-- The number of an opmask register, the field `aaa` (30_encoding.md R86). -/
abbrev MaskNum := BitVec 3

/-- The segment registers (10_state.md R22). -/
inductive Seg where
  | es
  | cs
  | ss
  | ds
  | fs
  | gs
  deriving DecidableEq, Repr

/-- A legacy byte that may stand before the EVEX bytes (30_encoding.md R98). -/
inductive LegacyPrefix where
  | segment (s : Seg)   -- 26H 2EH 36H 3EH 64H 65H
  | addressSize         -- 67H
  deriving DecidableEq, Repr

/-- The displacement a ModRM byte calls for: none, one byte scaled by N, or four bytes (30_encoding.md R92, R96). -/
inductive Disp where
  | none
  | disp8 (d : BitVec 8)
  | disp32 (d : BitVec 32)
  deriving DecidableEq, Repr

/-- A memory operand as ModRM and SIB give it (30_encoding.md R92 to R95). `x` and `b` are the values of EVEX.X and
EVEX.B where the form does not use them. -/
inductive Addr where
  /-- ModRM without SIB: a base register `B‖rm` (R92). -/
  | base (reg : GprNum) (disp : Disp) (x : Bool)
  /-- SIB with a base register; the index number 0100b means no index (R93, R94). -/
  | sib (scale : BitVec 2) (index : GprNum) (reg : GprNum) (disp : Disp)
  /-- SIB without base register: `mod` = 00b and `base` = 101b (R94(b)). -/
  | sibNoBase (scale : BitVec 2) (index : GprNum) (disp : BitVec 32) (b : Bool)
  /-- `mod` = 00b and `rm` = 101b: RIP-relative in 64-bit mode, absolute in 32-bit mode (R95). -/
  | direct (disp : BitVec 32) (x b : Bool)
  deriving DecidableEq, Repr

/-- The source operand (30_encoding.md R89): a vector register, or memory of the full vector length, or one 64-bit
element of memory broadcast (`bcast` is EVEX.b). -/
inductive Src where
  | reg (r : VecNum)
  | mem (bcast : Bool) (a : Addr)
  deriving DecidableEq, Repr

/-- The operands of VRSQRT14PD (40_vrsqrt14pd.md R130): the legacy bytes, the destination register, the source, the
opmask number `aaa` (0 names no writemask) and the zeroing bit `z`. -/
structure Operands where
  legacy  : List LegacyPrefix
  dest    : VecNum
  src     : Src
  mask    : MaskNum
  zeroing : Bool
  deriving DecidableEq, Repr

/-- The three forms, named by their registers (40_vrsqrt14pd.md R131 to R133). -/
inductive Form where
  | xmm
  | ymm
  | zmm
  deriving DecidableEq, Repr

end Sys2Proof
end

