-- ==== Sys2Proof/Syntax.lean ====
section
/-!
DEFINITION. The instructions: one constructor for each row of spec/opcode_table.json, in the table's order
(30_encoding.md R101). All three rows carry the mnemonic VRSQRT14PD.
-/

namespace Sys2Proof

/-- The instructions of the machine. -/
inductive Instr where
  /-- EVEX.128.66.0F38.W1 4E /r, VRSQRT14PD xmm1 k1 z, xmm2/m128/m64bcst (40_vrsqrt14pd.md R131). -/
  | vrsqrt14pd128 (o : Operands)
  /-- EVEX.256.66.0F38.W1 4E /r, VRSQRT14PD ymm1 k1 z, ymm2/m256/m64bcst (40_vrsqrt14pd.md R132). -/
  | vrsqrt14pd256 (o : Operands)
  /-- EVEX.512.66.0F38.W1 4E /r, VRSQRT14PD zmm1 k1 z, zmm2/m512/m64bcst (40_vrsqrt14pd.md R133). -/
  | vrsqrt14pd512 (o : Operands)
  deriving DecidableEq, Repr

end Sys2Proof
end

