-- ==== Sys2Proof/Decode.lean ====
section
/-!
DEFINITION. The decoder and the encoder (spec/30_encoding.md R80 to R109). `decode` is total: a byte string gives an
instruction, or the length of an encoding that raises #UD whatever the state is, or a rejection by name. `encode` is
written from the same rules. The host's table words are read at the end.
-/

namespace Sys2Proof

/-! ## Lengths -/

/-- The displacement's bytes (30_encoding.md R92). -/
def Disp.size : Disp → Nat
  | .none => 0
  | .disp8 _ => 1
  | .disp32 _ => 4

/-- `nsib` of 30_encoding.md R100. -/
def Src.nsib : Src → Nat
  | .mem _ (.sib ..) => 1
  | .mem _ (.sibNoBase ..) => 1
  | _ => 0

/-- `ndisp` of 30_encoding.md R100. -/
def Src.ndisp : Src → Nat
  | .reg _ => 0
  | .mem _ (.base _ d _) => d.size
  | .mem _ (.sib _ _ _ d) => d.size
  | .mem _ (.sibNoBase ..) => 4
  | .mem _ (.direct ..) => 4

/-- The length `ilen` of an instruction whose legacy bytes number `n` (30_encoding.md R100). -/
def Src.lengthAfter (n : Nat) (src : Src) : Nat := n + 4 + 1 + 1 + src.nsib + src.ndisp

/-- `ilen` (30_encoding.md R100). -/
def Operands.length (o : Operands) : Nat := o.src.lengthAfter o.legacy.length

/-- The operands of an instruction. -/
def Instr.operands : Instr → Operands
  | .vrsqrt14pd128 o => o
  | .vrsqrt14pd256 o => o
  | .vrsqrt14pd512 o => o

/-- The form of an instruction. -/
def Instr.form : Instr → Form
  | .vrsqrt14pd128 _ => .xmm
  | .vrsqrt14pd256 _ => .ymm
  | .vrsqrt14pd512 _ => .zmm

/-- The instruction of a form (30_encoding.md R87: the form is selected by L'L alone). -/
def Form.instr (o : Operands) : Form → Instr
  | .xmm => .vrsqrt14pd128 o
  | .ymm => .vrsqrt14pd256 o
  | .zmm => .vrsqrt14pd512 o

/-! ## The extension bits of a source -/

/-- EVEX.X of a source: bit 4 of a register, bit 3 of an index, or unused (30_encoding.md R88, R93). -/
def Src.extX : Src → Bool
  | .reg r => r.getLsbD 4
  | .mem _ (.base _ _ x) => x
  | .mem _ (.sib _ i _ _) => i.getLsbD 3
  | .mem _ (.sibNoBase _ i _ _) => i.getLsbD 3
  | .mem _ (.direct _ x _) => x

/-- EVEX.B of a source: bit 3 of a register or base, or unused (30_encoding.md R88, R92, R93). -/
def Src.extB : Src → Bool
  | .reg r => r.getLsbD 3
  | .mem _ (.base g _ _) => g.getLsbD 3
  | .mem _ (.sib _ _ g _) => g.getLsbD 3
  | .mem _ (.sibNoBase _ _ _ b) => b
  | .mem _ (.direct _ _ b) => b

/-! ## Decoding -/

/-- Why a byte string is not read as VRSQRT14PD (30_encoding.md R109 steps 2 and 3). -/
inductive Rejection where
  /-- The byte after the legacy bytes is not 62H (R109 step 2). -/
  | notEvex
  /-- Outside 64-bit mode, 62H with bits 7:6 of the next byte not 11b is BOUND (R82). -/
  | bound
  /-- Reserved EVEX bits, P0[3:2] or P1[2], are not as fixed (R106). -/
  | reservedEvexBits
  /-- Another map, mandatory byte, W or opcode: another instruction (R107). -/
  | otherInstruction
  /-- The bytes end before the instruction does (60_exceptions.md R201(1)). -/
  | outOfBytes
  deriving DecidableEq, Repr

/-- What a byte string is read as. -/
inductive Decoded where
  /-- One of the three rows of the table (30_encoding.md R101). -/
  | instr (i : Instr)
  /-- In the VRSQRT14PD space and #UD by its bytes alone (60_exceptions.md R193 (a) to (e)), with its length. -/
  | undefined (length : Nat)
  /-- Not VRSQRT14PD. -/
  | rejected (r : Rejection)
  deriving DecidableEq, Repr

/-- What a byte before 62H is (30_encoding.md R98). -/
inductive LegacyByte where
  | allowed (p : LegacyPrefix)
  | undefined
  | opcode
  deriving DecidableEq, Repr

/-- The reading of one byte before 62H (30_encoding.md R98): overrides and 67H are allowed; F0H, 66H, F2H, F3H and, in
64-bit mode, 40H to 4FH raise #UD; any other byte begins the opcode. -/
def legacyByte (m : Mode) (b : Byte) : LegacyByte :=
  if b = 0x26#8 then .allowed (.segment .es)
  else if b = 0x2E#8 then .allowed (.segment .cs)
  else if b = 0x36#8 then .allowed (.segment .ss)
  else if b = 0x3E#8 then .allowed (.segment .ds)
  else if b = 0x64#8 then .allowed (.segment .fs)
  else if b = 0x65#8 then .allowed (.segment .gs)
  else if b = 0x67#8 then .allowed .addressSize
  else if b = 0xF0#8 ∨ b = 0x66#8 ∨ b = 0xF2#8 ∨ b = 0xF3#8 then .undefined
  else if m = .mode64 ∧ b.extractLsb' 4 4 = 4#4 then .undefined
  else .opcode

/-- The legacy bytes read off the front of a byte string: the allowed ones in order, how many bytes in all, whether
one of them raises #UD, and the rest. -/
structure LegacyScan where
  allowed   : List LegacyPrefix
  count     : Nat
  undefined : Bool
  rest      : List Byte
  deriving DecidableEq, Repr

/-- Step 1 of 30_encoding.md R109. -/
def scanLegacy (m : Mode) : List Byte → LegacyScan
  | [] => ⟨[], 0, false, []⟩
  | b :: bs =>
    match legacyByte m b with
    | .opcode => ⟨[], 0, false, b :: bs⟩
    | .allowed p =>
      let r := scanLegacy m bs
      ⟨p :: r.allowed, r.count + 1, r.undefined, r.rest⟩
    | .undefined =>
      let r := scanLegacy m bs
      ⟨r.allowed, r.count + 1, true, r.rest⟩

/-- A displacement of four bytes, least significant first (30_encoding.md R97). -/
def readDisp32 : List Byte → Option (BitVec 32)
  | b0 :: b1 :: b2 :: b3 :: _ => some (b3 ++ b2 ++ b1 ++ b0)
  | _ => none

/-- The displacement `mod` = 00b, 01b or 10b calls for (30_encoding.md R92). -/
def readDisp (md : BitVec 2) (bs : List Byte) : Option Disp :=
  if md = 0#2 then some .none
  else if md = 1#2 then
    match bs with
    | d :: _ => some (.disp8 d)
    | [] => none
  else (readDisp32 bs).map .disp32

/-- The memory operand of `mod` != 11b from the bytes after ModRM (30_encoding.md R92 to R95). -/
def readAddr (x b : Bool) (md : BitVec 2) (rm : BitVec 3) (bs : List Byte) : Option Addr :=
  if rm = 4#3 then
    match bs with
    | [] => none
    | sib :: rest =>
      let scale := sib.extractLsb' 6 2
      let index : GprNum := BitVec.ofBool x ++ sib.extractLsb' 3 3
      let low := sib.extractLsb' 0 3
      if md = 0#2 ∧ low = 5#3 then (readDisp32 rest).map fun d => .sibNoBase scale index d b
      else (readDisp md rest).map fun d => .sib scale index (BitVec.ofBool b ++ low) d
  else if md = 0#2 ∧ rm = 5#3 then (readDisp32 bs).map fun d => .direct d x b
  else (readDisp md bs).map fun d => .base (BitVec.ofBool b ++ rm) d x

/-- The source operand (30_encoding.md R88, R89): `mod` = 11b names a register. -/
def readSrc (x b bcast : Bool) (md : BitVec 2) (rm : BitVec 3) (bs : List Byte) : Option Src :=
  if md = 3#2 then some (.reg (BitVec.ofBool x ++ BitVec.ofBool b ++ rm))
  else (readAddr x b md rm bs).map (.mem bcast)

/-- The form L'L selects; 11b is reserved (30_encoding.md R85, R104). -/
def readForm (ll : BitVec 2) : Option Form :=
  if ll = 0#2 then some .xmm
  else if ll = 1#2 then some .ymm
  else if ll = 2#2 then some .zmm
  else none

/-- The payload bytes, the opcode and ModRM of an EVEX-encoded instruction (30_encoding.md R82 to R88). -/
structure EvexBytes where
  p0    : Byte
  p1    : Byte
  p2    : Byte
  op    : Byte
  modrm : Byte
  deriving DecidableEq, Repr

/-- Steps 2 and 3 of 30_encoding.md R109: why these bytes are not in the VRSQRT14PD space, if they are not (R82, R106,
R107, R115). -/
def EvexBytes.foreign (m : Mode) (e : EvexBytes) : Option Rejection :=
  if m ≠ .mode64 ∧ e.p0.extractLsb' 6 2 ≠ 3#2 then some .bound
  else if e.p0.extractLsb' 2 2 ≠ 0#2 ∨ e.p1.getLsbD 2 = false then some .reservedEvexBits
  else if e.p0.extractLsb' 0 2 ≠ 2#2 ∨ e.p1.extractLsb' 0 2 ≠ 1#2 ∨ e.p1.getLsbD 7 = false ∨ e.op ≠ 0x4E#8 then
    some .otherInstruction
  else none

/-- The #UD conditions an encoding in the space meets by its own bits: vvvvn, V'n, and `b` with `mod` = 11b
(30_encoding.md R102, R103, R90; L'L is `readForm`'s). -/
def EvexBytes.reserved (e : EvexBytes) : Bool :=
  e.p1.extractLsb' 3 4 != 15#4 || !e.p2.getLsbD 3 || (e.modrm.extractLsb' 6 2 == 3#2 && e.p2.getLsbD 4)

/-- The operands of an encoding in the space whose source is `src` (30_encoding.md R85, R86, R88). -/
def EvexBytes.operands (legacy : List LegacyPrefix) (e : EvexBytes) (src : Src) : Operands where
  legacy := legacy
  dest := BitVec.ofBool (!e.p0.getLsbD 4) ++ BitVec.ofBool (!e.p0.getLsbD 7) ++ e.modrm.extractLsb' 3 3
  src := src
  mask := e.p2.extractLsb' 0 3
  zeroing := e.p2.getLsbD 7

/-- Steps 3 to 6 of 30_encoding.md R109 for the bytes after the legacy bytes `ls`. -/
def decodeEvex (m : Mode) (ls : LegacyScan) (e : EvexBytes) (tail : List Byte) : Decoded :=
  match e.foreign m with
  | some r => .rejected r
  | none =>
    match readSrc (!e.p0.getLsbD 6) (!e.p0.getLsbD 5) (e.p2.getLsbD 4) (e.modrm.extractLsb' 6 2)
        (e.modrm.extractLsb' 0 3) tail with
    | none => .rejected .outOfBytes
    | some src =>
      match readForm (e.p2.extractLsb' 5 2) with
      | none => .undefined (src.lengthAfter ls.count)
      | some f =>
        if e.reserved || ls.undefined then .undefined (src.lengthAfter ls.count)
        else .instr (f.instr (e.operands ls.allowed src))

/-- The decoder (30_encoding.md R109, steps 1 to 4 and 6 as far as they are a matter of the bytes). -/
def decode (m : Mode) (bs : List Byte) : Decoded :=
  let ls := scanLegacy m bs
  match ls.rest with
  | [] => .rejected .outOfBytes
  | b :: rest =>
    if b = 0x62#8 then
      match rest with
      | p0 :: p1 :: p2 :: op :: modrm :: tail => decodeEvex m ls ⟨p0, p1, p2, op, modrm⟩ tail
      | _ => .rejected .outOfBytes
    else .rejected .notEvex

/-! ## Encoding -/

/-- The byte of a legacy prefix (30_encoding.md R98). -/
def LegacyPrefix.byte : LegacyPrefix → Byte
  | .segment .es => 0x26#8
  | .segment .cs => 0x2E#8
  | .segment .ss => 0x36#8
  | .segment .ds => 0x3E#8
  | .segment .fs => 0x64#8
  | .segment .gs => 0x65#8
  | .addressSize => 0x67#8

/-- Four bytes, least significant first (30_encoding.md R97). -/
def disp32Bytes (d : BitVec 32) : List Byte :=
  [d.extractLsb' 0 8, d.extractLsb' 8 8, d.extractLsb' 16 8, d.extractLsb' 24 8]

/-- The bytes of a displacement. -/
def Disp.bytes : Disp → List Byte
  | .none => []
  | .disp8 d => [d]
  | .disp32 d => disp32Bytes d

/-- The `mod` field a displacement calls for (30_encoding.md R92). -/
def Disp.modField : Disp → BitVec 2
  | .none => 0#2
  | .disp8 _ => 1#2
  | .disp32 _ => 2#2

/-- The SIB byte (30_encoding.md R93). -/
def sibByte (scale : BitVec 2) (index : GprNum) (low : BitVec 3) : Byte := scale ++ index.extractLsb' 0 3 ++ low

/-- The `mod` field (30_encoding.md R88, R92). -/
def Src.modField : Src → BitVec 2
  | .reg _ => 3#2
  | .mem _ (.base _ d _) => d.modField
  | .mem _ (.sib _ _ _ d) => d.modField
  | .mem _ (.sibNoBase ..) => 0#2
  | .mem _ (.direct ..) => 0#2

/-- The `rm` field (30_encoding.md R88, R92, R93, R95). -/
def Src.rmField : Src → BitVec 3
  | .reg r => r.extractLsb' 0 3
  | .mem _ (.base g _ _) => g.extractLsb' 0 3
  | .mem _ (.sib ..) => 4#3
  | .mem _ (.sibNoBase ..) => 4#3
  | .mem _ (.direct ..) => 5#3

/-- EVEX.b (30_encoding.md R89). -/
def Src.bcastBit : Src → Bool
  | .reg _ => false
  | .mem b _ => b

/-- The bytes after ModRM: SIB and displacement (30_encoding.md R80). -/
def Src.tail : Src → List Byte
  | .reg _ => []
  | .mem _ (.base _ d _) => d.bytes
  | .mem _ (.sib sc i g d) => sibByte sc i (g.extractLsb' 0 3) :: d.bytes
  | .mem _ (.sibNoBase sc i d _) => sibByte sc i 5#3 :: disp32Bytes d
  | .mem _ (.direct d _ _) => disp32Bytes d

/-- L'L of a form (30_encoding.md R85). -/
def Form.lengthField : Form → BitVec 2
  | .xmm => 0#2
  | .ymm => 1#2
  | .zmm => 2#2

/-- P0 (30_encoding.md R83): the register extension bits inverted, 00b, map 10b. -/
def Operands.p0 (o : Operands) : Byte :=
  BitVec.ofBool (!o.dest.getLsbD 3) ++ BitVec.ofBool (!o.src.extX) ++ BitVec.ofBool (!o.src.extB) ++
    BitVec.ofBool (!o.dest.getLsbD 4) ++ 2#4

/-- P2 (30_encoding.md R85): z, L'L, b, V'n = 1, aaa. -/
def Operands.p2 (f : Form) (o : Operands) : Byte :=
  BitVec.ofBool o.zeroing ++ f.lengthField ++ BitVec.ofBool o.src.bcastBit ++ 1#1 ++ o.mask

/-- ModRM (30_encoding.md R88). -/
def Operands.modrm (o : Operands) : Byte := o.src.modField ++ o.dest.extractLsb' 0 3 ++ o.src.rmField

/-- The encoder: the bytes of an instruction in address order (30_encoding.md R80, with P1 = FDH by R84). -/
def encode (i : Instr) : List Byte :=
  let o := i.operands
  o.legacy.map LegacyPrefix.byte ++
    (0x62#8 :: o.p0 :: 0xFD#8 :: o.p2 i.form :: 0x4E#8 :: o.modrm :: o.src.tail)

/-! ## The host's table words -/

/-- The most bytes an instruction may have (30_encoding.md R81). -/
abbrev maxLength : Nat := 15

/-- The bytes of a table word of `nbits` bits, padded with zeros to the longest instruction. spec/opcode_table.json
numbers its rows with the byte at the lowest address MOST significant; the host's note numbers the first byte LEAST
significant. A VRSQRT14PD word of the table begins with 62H, so the end that holds 62H is the first byte. DESIGN
CHOICE, safe, log entry 23. -/
def tableBytes (nbits w : Nat) : List Byte :=
  let n := nbits / 8
  let low := (List.range n).map fun i => BitVec.ofNat 8 (w >>> (8 * i))
  let bytes := if low.head? = some 0x62#8 then low else low.reverse
  bytes ++ List.replicate (maxLength - n) 0#8

/-- The instruction the decoder reads from a table word in 64-bit mode. -/
def decodeTableWord (nbits w : Nat) : Option Instr :=
  match decode .mode64 (tableBytes nbits w) with
  | .instr i => some i
  | _ => none

end Sys2Proof
end

