-- ==== Sys2Proof/Machine/State.lean ====
section
/-!
DEFINITION. The state of the machine (spec/10_state.md), its reset value (R38), the reasons a step faults or is
refused (spec/60_exceptions.md R190, R196). State is plain data.
-/

namespace Sys2Proof.Machine

/-- Memory: the admitted addresses with their bytes (20_memory.md R63). An address that is not listed is not admitted
and reads as nothing, log entry 7 (safe). -/
abbrev Memory := List Host.Cell

/-- The canonical form of a memory: addresses strictly rising, all inside the 64-bit address space (10_state.md R35).
No entry can equal what an unlisted address reads as, because such an address has no byte. -/
abbrev Memory.wf (m : Memory) : Prop := m.Pairwise (fun c d => c.1 < d.1) ∧ ∀ c ∈ m, c.1 < 2 ^ 64

/-- A range of addresses, `size` bytes from `base`. -/
structure Region where
  base : Nat
  size : Nat
  deriving DecidableEq, Repr

/-- The base addresses of the six segment registers (10_state.md R22). -/
structure SegBases where
  es : Word
  cs : Word
  ss : Word
  ds : Word
  fs : Word
  gs : Word
  deriving DecidableEq, Repr

/-- The opmask registers k0 to k7 (10_state.md R33). Their width KW is open, at least 8 (00_scope.md R8's table), so it
stands beside them; no step changes it. -/
structure Opmasks where
  kw : Nat
  k  : Vector (BitVec kw) 8
  deriving DecidableEq, Repr

/-- Constants of the part, which no step changes (00_scope.md R8's table; 10_state.md R30; 20_memory.md R59, R61). -/
structure Part where
  /-- CPUID AVX512F. -/
  avx512f : Bool
  /-- CPUID AVX512VL. -/
  avx512vl : Bool
  /-- Masked-off elements raise no memory fault. -/
  faultSuppression : Bool
  /-- The width of a linear address in 64-bit mode. -/
  linearWidth : LinearWidth
  deriving DecidableEq, Repr

/-- The state of the logical processor and its memory. -/
structure State where
  /-- General registers RAX to R15 (10_state.md R21). -/
  x : Vector Word 16
  /-- Vector registers ZMM0 to ZMM31 (10_state.md R31). -/
  v : Vector (BitVec Config.maxvl) 32
  /-- Opmask registers k0 to k7 with their width KW (10_state.md R33). -/
  opmask : Opmasks
  /-- The instruction pointer (10_state.md R23). -/
  pc : Word
  /-- RFLAGS (10_state.md R25). -/
  rflags : Word
  /-- MXCSR (10_state.md R27, R28). -/
  mxcsr : BitVec 32
  /-- The operating mode (10_state.md R29, 60_exceptions.md R209). -/
  mode : Mode
  /-- The current privilege level (60_exceptions.md R208). -/
  cpl : Fin 4
  /-- CR0.TS (10_state.md R29). -/
  cr0Ts : Bool
  /-- CR0.AM (10_state.md R29). -/
  cr0Am : Bool
  /-- CR4.OSXSAVE (10_state.md R29). -/
  cr4Osxsave : Bool
  /-- CR4.OSXMMEXCPT, which has no effect here (60_exceptions.md R191). -/
  cr4Osxmmexcpt : Bool
  /-- XCR0 (10_state.md R29, 60_exceptions.md R194). -/
  xcr0 : BitVec 64
  /-- CR2, written when a page fault is delivered, which the spec leaves out (60_exceptions.md R196, R203). -/
  cr2 : Word
  /-- The segment bases (10_state.md R22). -/
  segBase : SegBases
  /-- The admitted memory (20_memory.md R63). -/
  mem : Memory
  /-- The addresses that are not ordinary memory (20_memory.md R56). -/
  devices : List Region
  /-- The part's constants. -/
  part : Part
  deriving DecidableEq, Repr

/-- The state after a power-up reset (10_state.md R38): real-address mode at FFFF0000H:FFF0H, extended state not
enabled. Values the spec does not state: log entries 4, 5, 6, 7, 8, 18 (unsafe). How a program comes to run from here:
log entry 1. -/
def State.reset : State where
  x := (Vector.replicate 16 0#64).set 2 Config.processorSignature
  v := Vector.replicate 32 (BitVec.ofNat Config.maxvl 0)
  opmask := { kw := 64, k := Vector.replicate 8 0#64 }
  pc := 0xFFF0#64
  rflags := 0x2#64
  mxcsr := 0x1F80#32
  mode := .real
  cpl := 0
  cr0Ts := false
  cr0Am := false
  cr4Osxsave := false
  cr4Osxmmexcpt := false
  xcr0 := 1#64
  cr2 := 0#64
  segBase := { es := 0#64, cs := 0xFFFF0000#64, ss := 0#64, ds := 0#64, fs := 0#64, gs := 0#64 }
  mem := []
  devices := []
  part := { avx512f := true, avx512vl := true, faultSuppression := true, linearWidth := .bits48 }

/-- What a memory fault reports (20_memory.md R64; 60_exceptions.md R197 to R199). -/
inductive MemFaultCause where
  /-- #SS(0): a byte of an operand in SS outside the canonical form or the limit (R197). -/
  | stackSegment
  /-- #GP(0): a byte of an operand in another segment outside the canonical form or the limit (R198). -/
  | generalProtection
  /-- #PF: accessed bytes the memory does not admit, with the lowest linear address of them (93_implementation_defined.md
  U21; the model's choice where an operand wraps, log entry 16) and the fault code, bits 5:0 being PK I/D RSVD U/S W/R P
  (R199). -/
  | notAdmitted (address : Word) (code : BitVec 6)
  deriving DecidableEq, Repr

/-- The exceptions VRSQRT14PD raises (60_exceptions.md R196). Each is a fault that ends the run with no state changed
(R190, R205); `savedPc` is the instruction pointer the exception saves, the address of the faulting instruction.
Safe: the model stops where the hardware would enter a handler, which the spec leaves out (00_scope.md R6(c)). -/
inductive Fault where
  /-- #UD, raised by an encoding with reserved bits or under a state that does not enable the instruction (R193). -/
  | invalidOpcode (savedPc : Word)
  /-- #NM, raised when CR0.TS is 1 (R195). -/
  | deviceNotAvailable (savedPc : Word)
  /-- #GP(0), raised by an instruction longer than 15 bytes (R198, 30_encoding.md R81). -/
  | instructionTooLong (savedPc : Word)
  /-- A fault of the memory operand, MemFault of 20_memory.md R64 (R197 to R199). -/
  | memFault (cause : MemFaultCause) (savedPc : Word)
  deriving DecidableEq, Repr

/-- Why a step has no meaning (60_exceptions.md R190). All are safe: the model says nothing of what follows. -/
inductive Refusal where
  /-- An instruction whose arm of `exec` has no meaning yet; raised by no arm of this model. Safe. -/
  | notModelled (mnemonic : String)
  /-- The bytes are not VRSQRT14PD, raised by `step` (00_scope.md R6(a), 30_encoding.md R82, R106, R107). Safe. -/
  | notVrsqrt14pd (why : Rejection)
  /-- The instruction's text leaves the admitted memory, raised by `step` (60_exceptions.md R201(1)). Safe. -/
  | textNotAdmitted
  /-- The instruction reaches past the last address or a byte of it is not canonical, raised by every instruction
  (10_state.md R24). Safe. -/
  | pcOutOfRange
  /-- Longer than 15 bytes and a #UD condition as well, raised by every instruction (60_exceptions.md R201). Safe. -/
  | overlongUndefined
  /-- `z` = 1 with `aaa` = 000b, raised by every instruction (30_encoding.md R105). Safe. -/
  | zeroingWithoutMask
  /-- A register 32-bit mode cannot name, raised by every instruction (30_encoding.md R88). Safe. -/
  | registerNotIn32BitMode
  /-- 67H in 32-bit mode, 16-bit addressing, raised by every instruction (30_encoding.md R99). Safe. -/
  | addressSize16
  /-- A misaligned m64bcst access with alignment checking on, raised by every instruction (20_memory.md R55). Safe. -/
  | alignmentCheckOpen
  /-- An operand in a device region, raised by every instruction (20_memory.md R56). Safe. -/
  | deviceMemory
  deriving DecidableEq, Repr

end Sys2Proof.Machine
end

