-- ==== Sys2Proof/Machine/Flags.lean ====
section
/-!
DEFINITION. The fields of MXCSR (spec/10_state.md R27, R28) and the conditions the control bits stand for (R25, R29,
spec/60_exceptions.md R194). VRSQRT14PD writes no flag (10_state.md R25, R26), so there is no flag to compute.
-/

namespace Sys2Proof.Machine

/-- The six exception flags IE DE ZE OE UE PE, bits 5:0. -/
def mxcsrFlags (m : BitVec 32) : BitVec 6 := m.extractLsb' 0 6

/-- Denormals-are-zeros, bit 6. -/
def mxcsrDaz (m : BitVec 32) : Bool := m.getLsbD 6

/-- The six exception masks, bits 12:7. -/
def mxcsrMasks (m : BitVec 32) : BitVec 6 := m.extractLsb' 7 6

/-- The rounding control, bits 14:13. -/
def mxcsrRounding (m : BitVec 32) : BitVec 2 := m.extractLsb' 13 2

/-- Flush to zero, bit 15. -/
def mxcsrFtz (m : BitVec 32) : Bool := m.getLsbD 15

/-- The reserved bits 31:16, which read as zero. -/
def mxcsrReserved (m : BitVec 32) : BitVec 16 := m.extractLsb' 16 16

/-- RFLAGS.AC, bit 18 (10_state.md R25). -/
def rflagsAc (r : Word) : Bool := r.getLsbD 18

/-- `state_enabled` (10_state.md R29, 60_exceptions.md R194): CR4.OSXSAVE = 1, XCR0[7:5] = 111b, XCR0[2:1] = 11b. -/
def State.stateEnabled (s : State) : Bool :=
  s.cr4Osxsave && s.xcr0.extractLsb' 5 3 == 7#3 && s.xcr0.extractLsb' 1 2 == 3#2

/-- `ac_enabled` (10_state.md R29): CR0.AM = 1, RFLAGS.AC = 1 and CPL = 3. -/
def State.acEnabled (s : State) : Bool := s.cr0Am && rflagsAc s.rflags && s.cpl == 3

/-- Whether the mode is one in which the instruction is valid (60_exceptions.md R209). -/
def State.modeValid (s : State) : Bool := s.mode == .mode32 || s.mode == .mode64

end Sys2Proof.Machine
end

