-- ==== Sys2Proof/WellFormed.lean ====
section
/-!
DEFINITION. Which instructions the encoding can express and the spec gives a meaning: the form checks of
spec/30_encoding.md R92 to R95, the length limit R81, the masking rule R105, and what 32-bit mode can name (R88, R99).
-/

namespace Sys2Proof

/-- The address forms ModRM and SIB can write: `rm` = 100b calls for SIB, and `mod` = 00b with 101b has no base
(30_encoding.md R92 to R95). -/
def Addr.wf : Addr → Bool
  | .base g d _ => g.extractLsb' 0 3 != 4#3 && !(d == .none && g.extractLsb' 0 3 == 5#3)
  | .sib _ _ g d => !(d == .none && g.extractLsb' 0 3 == 5#3)
  | .sibNoBase .. => true
  | .direct .. => true

/-- A register source is always expressible; a memory source as its address is. -/
def Src.wf : Src → Bool
  | .reg _ => true
  | .mem _ a => a.wf

/-- Zeroing-masking needs a writemask (30_encoding.md R105). -/
def Operands.maskingWf (o : Operands) : Bool := !(o.zeroing && o.mask == 0#3)

/-- At most 15 bytes (30_encoding.md R81). -/
def Operands.lengthWf (o : Operands) : Bool := decide (o.length ≤ maxLength)

/-- A well-formed instruction. -/
def Operands.wf (o : Operands) : Bool := o.src.wf && o.maskingWf && o.lengthWf

/-- A well-formed instruction. -/
def Instr.wf (i : Instr) : Bool := i.operands.wf

/-- The encodings 32-bit mode can name: registers 0 to 7, so R, X, B and R' are 0 (30_encoding.md R82, R88). -/
def Operands.lowRegisters (o : Operands) : Bool :=
  !o.dest.getLsbD 3 && !o.dest.getLsbD 4 && !o.src.extX && !o.src.extB

/-- Whether a 67H byte is present (30_encoding.md R99). -/
def Operands.hasAddressSize (o : Operands) : Bool := o.legacy.contains .addressSize

/-- What the spec gives a meaning in 32-bit mode (30_encoding.md R88, R99). -/
def Operands.fits32 (o : Operands) : Bool := o.lowRegisters && !o.hasAddressSize

end Sys2Proof
end

