-- ==== Sys2Proof/Machine/Ops.lean ====
section
/-!
DEFINITION. The named operations over registers and memory, and the raising of exceptions (spec/10_state.md,
spec/20_memory.md R53, R56, R63, spec/60_exceptions.md R190 to R205).
-/

namespace Sys2Proof.Machine

/-! ## Memory -/

/-- The byte at an address, if the memory admits it (20_memory.md R63). -/
def Memory.byte? : Memory → Nat → Option Byte
  | [], _ => none
  | c :: m, a => if c.1 = a then some c.2 else Memory.byte? m a

/-- `m` with the byte at `a` set to `b`, in canonical form. -/
def Memory.insert (a : Nat) (b : Byte) : Memory → Memory
  | [] => [(a, b)]
  | c :: m =>
    if a < c.1 then (a, b) :: c :: m
    else if a = c.1 then (a, b) :: m
    else c :: Memory.insert a b m

/-- `m` with the byte at the address `a` admitted and set to `b`. No instruction stores (20_memory.md R50): this is how
a launch memory is made (R63). -/
def Memory.store (m : Memory) (a : Word) (b : Byte) : Memory := Memory.insert a.toNat b m

/-- `bytes` stored at the addresses `addr 0`, `addr 1`, ... in this order. -/
def Memory.storeAll (m : Memory) (addr : Nat → Word) (bytes : List Byte) : Memory :=
  bytes.zipIdx.foldl (fun m c => m.store (addr c.2) c.1) m

/-- Whether a region holds an address. -/
def Region.holds (r : Region) (a : Nat) : Bool := decide (r.base ≤ a ∧ a < r.base + r.size)

/-- Whether an address is not ordinary memory (20_memory.md R56). -/
def State.isDevice (s : State) (a : Word) : Bool := s.devices.any (·.holds a.toNat)

/-- Whether an address is admitted, as ordinary memory or as a device (20_memory.md R56, R63). -/
def State.present (s : State) (a : Word) : Bool := (s.mem.byte? a.toNat).isSome || s.isDevice a

/-- The lowest of some addresses that is not admitted, if one is not (93_implementation_defined.md U21). -/
def State.lowestUnadmitted (s : State) : List Word → Option Word
  | [] => none
  | a :: as =>
    if s.present a then s.lowestUnadmitted as
    else
      match s.lowestUnadmitted as with
      | none => some a
      | some b => some (if a.toNat ≤ b.toNat then a else b)

/-- The byte of ordinary memory at an address. -/
def State.ordinary? (s : State) (a : Word) : Option Byte := if s.isDevice a then none else s.mem.byte? a.toNat

/-- The byte read at an admitted address; what it answers elsewhere enters no result, because an access to an address
that is not admitted has faulted before (40_vrsqrt14pd.md R130, R140). -/
def State.byteAt (s : State) (a : Word) : Byte := (s.mem.byte? a.toNat).getD 0#8

/-- `MemRead(addr, 8)`, little-endian, with byte `i` of the operand at `addr i` (20_memory.md R53). -/
def State.read64 (s : State) (addr : Nat → Word) : Elem :=
  s.byteAt (addr 7) ++ s.byteAt (addr 6) ++ s.byteAt (addr 5) ++ s.byteAt (addr 4) ++
    s.byteAt (addr 3) ++ s.byteAt (addr 2) ++ s.byteAt (addr 1) ++ s.byteAt (addr 0)

/-! ## Registers -/

/-- General register `r` (10_state.md R21). -/
def State.getX (s : State) (r : GprNum) : Word := s.x[r.toNat]'r.isLt

/-- Vector register `r`, all of it (10_state.md R31). -/
def State.getV (s : State) (r : VecNum) : BitVec Config.maxvl := s.v[r.toNat]'r.isLt

/-- Write the whole of vector register `r`. -/
def State.setV (s : State) (r : VecNum) (w : BitVec Config.maxvl) : State :=
  { s with v := s.v.set r.toNat w r.isLt }

/-- Bit `j` of opmask register `r` (10_state.md R33); there is none at and above KW. -/
def Opmasks.bit (m : Opmasks) (r : MaskNum) (j : Nat) : Bool := (m.k[r.toNat]'r.isLt).getLsbD j

/-- Bit `j` of opmask register `r` (10_state.md R33). -/
def State.kBit (s : State) (r : MaskNum) (j : Nat) : Bool := s.opmask.bit r j

/-- `pc <- pc + n` (10_state.md R23). -/
def State.advance (s : State) (n : Nat) : State := { s with pc := s.pc + Word.ofNat n }

/-- Element `j` of a vector register, bits 64j+63:64j (10_state.md R32). -/
def vecElem (w : BitVec Config.maxvl) (j : Nat) : Elem := w.extractLsb' (64 * j) 64

/-- The vector register whose elements 0 to 7 are `e 0` to `e 7`. -/
def vecOf (e : Nat → Elem) : BitVec Config.maxvl :=
  (e 0).setWidth _ ||| (e 1).setWidth _ <<< 64 ||| (e 2).setWidth _ <<< 128 ||| (e 3).setWidth _ <<< 192 |||
    (e 4).setWidth _ <<< 256 ||| (e 5).setWidth _ <<< 320 ||| (e 6).setWidth _ <<< 384 ||| (e 7).setWidth _ <<< 448

/-! ## Exceptions and refusals -/

/-- A reason not to complete. -/
inductive Stop where
  | fault (f : Fault)
  | refusal (r : Refusal)
  deriving DecidableEq, Repr

/-- The outcome a stop is. A fault ends the run with every register and byte as before the instruction
(60_exceptions.md R190, R205). -/
def Stop.outcome : Stop → Host.Outcome State Fault Refusal
  | .fault f => .fault f
  | .refusal r => .refused r

/-- Raise an exception of this instruction: it saves the address of the instruction's first byte (60_exceptions.md
R193, R205). -/
def State.raise (s : State) (f : Word → Fault) : Stop := .fault (f s.pc)

/-- The vector number of an exception (60_exceptions.md R196). -/
def Fault.vector : Fault → Nat
  | .invalidOpcode _ => 6
  | .deviceNotAvailable _ => 7
  | .instructionTooLong _ => 13
  | .memFault .stackSegment _ => 12
  | .memFault .generalProtection _ => 13
  | .memFault (.notAdmitted ..) _ => 14

/-- The instruction pointer an exception saves (60_exceptions.md R205). -/
def Fault.savedPc : Fault → Word
  | .invalidOpcode p => p
  | .deviceNotAvailable p => p
  | .instructionTooLong p => p
  | .memFault _ p => p

/-- The error code of an exception, where it has one (60_exceptions.md R196, R199). -/
def Fault.errorCode : Fault → Option (BitVec 6)
  | .invalidOpcode _ => none
  | .deviceNotAvailable _ => none
  | .instructionTooLong _ => some 0#6
  | .memFault .stackSegment _ => some 0#6
  | .memFault .generalProtection _ => some 0#6
  | .memFault (.notAdmitted _ c) _ => some c

/-- The page-fault code of a read (60_exceptions.md R199): bit 1 W/R = 0, bit 2 U/S = (CPL = 3), bit 4 I/D = 0; bits
0 (P), 3 (RSVD) and 5 (PK) are free, log entry 16. -/
def State.pageFaultCode (s : State) (a : Word) : BitVec 6 :=
  (Config.pageFaultDraw a &&& 0b101001#6) ||| (if s.cpl = 3 then 0b000100#6 else 0#6)

/-! ## The instruction pointer and the text -/

/-- Whether a linear address is canonical (20_memory.md R59): bits 63:47, or 63:56, are all equal. -/
def State.canonical (s : State) (a : Word) : Bool :=
  match s.part.linearWidth with
  | .bits48 => a.extractLsb' 47 17 == 0#17 || a.extractLsb' 47 17 == BitVec.allOnes 17
  | .bits57 => a.extractLsb' 56 8 == 0#8 || a.extractLsb' 56 8 == BitVec.allOnes 8

/-- Whether an instruction of `n` bytes at `pc` keeps inside what 10_state.md R24 covers: `pc + n` does not exceed the
last address, and in 64-bit mode every byte is canonical. -/
def State.textInRange (s : State) (n : Nat) : Bool :=
  match s.mode with
  | .mode64 => decide (s.pc.toNat + n ≤ 2 ^ 64 - 1) && (List.range n).all fun i => s.canonical (s.pc + Word.ofNat i)
  | _ => decide (s.pc.toNat + n ≤ 2 ^ 32 - 1)

/-- The linear address of byte `i` of the instruction at `pc` (30_encoding.md R80): outside 64-bit mode the base of CS
is added, modulo 2^32 (PRESUMED, log entry 10; CS has base 0 in a flat model). -/
def State.textAddr (s : State) (i : Nat) : Word :=
  match s.mode with
  | .mode64 => s.pc + Word.ofNat i
  | _ => ((s.segBase.cs + s.pc + Word.ofNat i).setWidth 32).setWidth 64

/-- The bytes of ordinary memory from byte `i` of the instruction on, as far as they run without a gap, at most
`fuel` of them. -/
def State.textFrom (s : State) : (fuel i : Nat) → List Byte
  | 0, _ => []
  | fuel + 1, i =>
    match s.ordinary? (s.textAddr i) with
    | none => []
    | some b => b :: s.textFrom fuel (i + 1)

/-- The byte string at `pc` (30_encoding.md R80, R109): all the bytes that can be read from there on. No run of
admitted bytes is longer than the memory's list. -/
def State.text (s : State) : List Byte := s.textFrom s.mem.length 0

/-! ## #UD by the bytes alone -/

/-- An encoding of `n` bytes that raises #UD by its own bits (60_exceptions.md R193 (a) to (e)); longer than 15 bytes
it is refused (R201). -/
def State.undefinedEncoding (s : State) (n : Nat) : Stop :=
  if !s.textInRange n then .refusal .pcOutOfRange
  else if maxLength < n then .refusal .overlongUndefined
  else s.raise .invalidOpcode

end Sys2Proof.Machine
end

