-- ==== Sys2Proof/Machine/Operands.lean ====
section
/-!
DEFINITION. The operand forms: the sizes of a form (spec/00_scope.md R7), the effective and linear address of a memory
operand (spec/20_memory.md R58 to R60, spec/30_encoding.md R92 to R99), which bytes are accessed (R50, R61), the
source elements (spec/40_vrsqrt14pd.md R134) and the writemask (R135).
-/

namespace Sys2Proof.Machine

/-- KL, the number of elements (00_scope.md R7). -/
def formKl : Form → Nat
  | .xmm => 2
  | .ymm => 4
  | .zmm => 8

/-- VL, the vector length in bits (00_scope.md R7). -/
def formVl (f : Form) : Nat := 64 * formKl f

/-- Bit `j` of the writemask (40_vrsqrt14pd.md R135; 10_state.md R34: `aaa` = 0 names no writemask). -/
def maskBit (o : Operands) (s : State) (j : Nat) : Bool := o.mask == 0#3 || s.kBit o.mask j

/-- N, the factor of a compressed displacement (30_encoding.md R96): the operand's size in bytes. -/
def disp8Factor (f : Form) (bcast : Bool) : Nat := if bcast then 8 else formVl f / 8

/-- The displacement's value, modulo 2^64 (20_memory.md R58). -/
def dispValue (n : Nat) : Disp → Word
  | .none => 0#64
  | .disp8 d => d.signExtend 64 * Word.ofNat n
  | .disp32 d => d.signExtend 64

/-- The index term: `x[index] * 2^scale`, or 0 where the index number is 0100b (30_encoding.md R93, R94(a)). -/
def indexTerm (s : State) (scale : BitVec 2) (index : GprNum) : Word :=
  if index = 4#4 then 0#64 else s.getX index <<< scale.toNat

/-- Whether addresses of this instruction are formed in 32 bits (20_memory.md R58, 30_encoding.md R99). -/
def address32 (o : Operands) (s : State) : Bool := s.mode != .mode64 || o.hasAddressSize

/-- `base + index * scale + disp` before it is cut to the address size (20_memory.md R58). Cutting the sum is cutting
its terms. -/
def addressSum (f : Form) (o : Operands) (bcast : Bool) (a : Addr) (s : State) : Word :=
  match a with
  | .base g d _ => s.getX g + dispValue (disp8Factor f bcast) d
  | .sib sc i g d => s.getX g + indexTerm s sc i + dispValue (disp8Factor f bcast) d
  | .sibNoBase sc i d _ => indexTerm s sc i + d.signExtend 64
  | .direct d _ _ => (if s.mode = .mode64 then s.pc + Word.ofNat o.length else 0#64) + d.signExtend 64

/-- EA, the effective address, zero-extended to 64 bits (20_memory.md R58). -/
def effectiveAddress (f : Form) (o : Operands) (bcast : Bool) (a : Addr) (s : State) : Word :=
  if address32 o s then ((addressSum f o bcast a s).setWidth 32).setWidth 64 else addressSum f o bcast a s

/-- The segment of a form without an override (20_memory.md R60): SS where the base register is number 4 or 5. -/
def defaultSegment : Addr → Seg
  | .base g _ _ => if g = 4#4 ∨ g = 5#4 then .ss else .ds
  | .sib _ _ g _ => if g = 4#4 ∨ g = 5#4 then .ss else .ds
  | .sibNoBase .. => .ds
  | .direct .. => .ds

/-- The last segment override of the legacy bytes (30_encoding.md R98). -/
def lastOverride : List LegacyPrefix → Option Seg
  | [] => none
  | p :: ps =>
    match lastOverride ps, p with
    | some g, _ => some g
    | none, .segment g => some g
    | none, .addressSize => none

/-- The segment of a memory operand (20_memory.md R60). -/
def operandSegment (o : Operands) (a : Addr) : Seg := (lastOverride o.legacy).getD (defaultSegment a)

/-- `seg_base(s)` (10_state.md R22): in 64-bit mode only FS and GS have a base other than 0. -/
def segmentBase (s : State) : Seg → Word
  | .fs => s.segBase.fs
  | .gs => s.segBase.gs
  | .es => if s.mode = .mode64 then 0#64 else s.segBase.es
  | .cs => if s.mode = .mode64 then 0#64 else s.segBase.cs
  | .ss => if s.mode = .mode64 then 0#64 else s.segBase.ss
  | .ds => if s.mode = .mode64 then 0#64 else s.segBase.ds

/-- A, the linear address of the operand, plus `i` bytes (20_memory.md R58, R53): modulo 2^64 in 64-bit mode and
modulo 2^32 in 32-bit mode (log entry 14 for the bytes after the first). -/
def operandByte (f : Form) (o : Operands) (bcast : Bool) (a : Addr) (s : State) (i : Nat) : Word :=
  let sum := segmentBase s (operandSegment o a) + effectiveAddress f o bcast a s + Word.ofNat i
  if s.mode = .mode64 then sum else (sum.setWidth 32).setWidth 64

/-- The bytes of the operand that are accessed, as offsets (20_memory.md R50, R61; 40_vrsqrt14pd.md R130): those of
the elements whose mask bit is 1, or all of them without fault suppression; the 8 bytes of m64bcst if one mask bit
is 1. -/
def accessedBytes (f : Form) (o : Operands) (bcast : Bool) (s : State) : List Nat :=
  if bcast then
    if !s.part.faultSuppression || (List.range (formKl f)).any (maskBit o s) then List.range 8 else []
  else (List.range (8 * formKl f)).filter fun i => !s.part.faultSuppression || maskBit o s (i / 8)

/-- Whether byte `i` of the operand violates its segment: not canonical in 64-bit mode (20_memory.md R59), past the
4 GiB limit of a flat segment in 32-bit mode (60_exceptions.md R197, R198; log entry 13). -/
def segmentViolation (f : Form) (o : Operands) (bcast : Bool) (a : Addr) (s : State) (i : Nat) : Bool :=
  if s.mode = .mode64 then !s.canonical (operandByte f o bcast a s i)
  else decide (2 ^ 32 ≤ (effectiveAddress f o bcast a s).toNat + i)

/-- Why the memory operand cannot be read, if it cannot, in the order of 60_exceptions.md R201: #SS(0) or #GP(0), then
#PF, then the alignment check, then device memory (20_memory.md R55, R56; log entry 17). R199 leaves open which page a
#PF reports: the model's choice is the lowest linear address not admitted, also for an operand that wraps past the top of
the address space, where that is not the first byte in operand order (log entry 16). -/
def memoryStop (f : Form) (o : Operands) (bcast : Bool) (a : Addr) (s : State) : Option Stop :=
  let bytes := accessedBytes f o bcast s
  if bytes.any (segmentViolation f o bcast a s) then
    some (s.raise (.memFault (if operandSegment o a = .ss then .stackSegment else .generalProtection)))
  else
    match s.lowestUnadmitted (bytes.map (operandByte f o bcast a s)) with
    | some p => some (s.raise (.memFault (.notAdmitted p (s.pageFaultCode p))))
    | none =>
      if bcast && s.acEnabled && !bytes.isEmpty && (operandByte f o bcast a s 0).extractLsb' 0 3 != 0#3 then
        some (.refusal .alignmentCheckOpen)
      else if bytes.any (fun i => s.isDevice (operandByte f o bcast a s i)) then some (.refusal .deviceMemory)
      else none

/-- Why the source cannot be read, if it cannot. -/
def sourceStop (f : Form) (o : Operands) (s : State) : Option Stop :=
  match o.src with
  | .reg _ => none
  | .mem bcast a => memoryStop f o bcast a s

/-- S[j], element `j` of the source (40_vrsqrt14pd.md R134; 20_memory.md R51, R52). -/
def sourceElem (f : Form) (o : Operands) (s : State) (j : Nat) : Elem :=
  match o.src with
  | .reg r => vecElem (s.getV r) j
  | .mem bcast a => s.read64 fun i => operandByte f o bcast a s (if bcast then i else 8 * j + i)

end Sys2Proof.Machine
end

