-- ==== Sys2Proof/Machine/Rsqrt14.lean ====
section
/-!
DEFINITION. The double-precision format and the element function RSQRT14 (spec/41_element_numerics.md R160 to R178).
-/

namespace Sys2Proof.Machine

/-! ## The format (R161) -/

/-- Bit 63. -/
def signBit (e : Elem) : Bool := e.getLsbD 63

/-- The biased exponent, bits 62:52. -/
def expField (e : Elem) : BitVec 11 := e.extractLsb' 52 11

/-- The fraction, bits 51:0. -/
def fracField (e : Elem) : BitVec 52 := e.extractLsb' 0 52

/-- Not a number: exponent 2047, fraction not 0. -/
def isNan (e : Elem) : Bool := expField e == 2047#11 && fracField e != 0#52

/-- A quiet NaN: bit 51 is 1. -/
def isQuiet (e : Elem) : Bool := isNan e && e.getLsbD 51

/-- An infinity: exponent 2047, fraction 0. -/
def isInf (e : Elem) : Bool := expField e == 2047#11 && fracField e == 0#52

/-- A zero: exponent 0, fraction 0. -/
def isZero (e : Elem) : Bool := expField e == 0#11 && fracField e == 0#52

/-- A denormal: exponent 0, fraction not 0. -/
def isDenormal (e : Elem) : Bool := expField e == 0#11 && fracField e != 0#52

/-- A normal number: exponent 1 to 2046. -/
def isNormal (e : Elem) : Bool := expField e != 0#11 && expField e != 2047#11

/-- The inputs of `rsqrt14_f64` (R168): positive, finite, not zero. -/
def isPositiveFinite (e : Elem) : Bool := !signBit e && (isNormal e || isDenormal e)

/-- The value of a finite element (R161). -/
def elemValue (e : Elem) : ℚ :=
  (if signBit e then -1 else 1) *
    (if expField e = 0#11 then ((fracField e).toNat : ℚ) * (2 : ℚ) ^ (-1074 : ℤ)
     else (1 + ((fracField e).toNat : ℚ) * (2 : ℚ) ^ (-52 : ℤ)) * (2 : ℚ) ^ (((expField e).toNat : ℤ) - 1023))

/-- The magnitude of a finite element in units of 2^-1074, the least denormal. -/
def scaled (e : Elem) : Nat :=
  if expField e = 0#11 then (fracField e).toNat
  else (2 ^ 52 + (fracField e).toNat) * 2 ^ ((expField e).toNat - 1)

/-! ## The approximation (R171 to R176) -/

/-- Whether the input is 2^-2n for an integer n: a power of two whose exponent is even (R173). In units of 2^-1074 it
is 2^k with k even. -/
def isEvenPower (e : Elem) : Bool := 2 ^ Nat.log2 (scaled e) == scaled e && Nat.log2 (scaled e) % 2 == 0

/-- 2^n for the input 2^-2n (R173): with k the input's exponent in units of 2^-1074, n = 537 - k/2 and the exponent
field is 1023 + n. -/
def evenPowerRoot (e : Elem) : Elem := BitVec.ofNat 64 ((1560 - Nat.log2 (scaled e) / 2) * 2 ^ 52)

/-- What the spec admits as the approximation `r` for the input `e` (R172, R175): a positive normal number with
(1 - 2^-14)^2 < r^2 x < (1 + 2^-14)^2, which is |r - t| < 2^-14 t for t = 1/sqrt x; both sides are multiplied by
2^(3 * 1074 + 28). -/
abbrev Admissible (e r : Elem) : Prop :=
  (!signBit r && isNormal r) = true ∧
    (2 ^ 14 - 1) ^ 2 * 2 ^ 3222 < scaled r ^ 2 * scaled e * 2 ^ 28 ∧
    scaled r ^ 2 * scaled e * 2 ^ 28 < (2 ^ 14 + 1) ^ 2 * 2 ^ 3222

/-- One admissible answer for each input: 1/sqrt x cut to 53 bits. It stands in where the free value is outside the
limits, so that `rsqrt14F64` is every function the spec admits and no other, log entry 3. -/
def someRoot (e : Elem) : Elem :=
  let q := Nat.sqrt (2 ^ 3222 / scaled e)
  let s := Nat.log2 q - 52
  BitVec.ofNat 64 ((s + 1) * 2 ^ 52 + (q / 2 ^ s - 2 ^ 52))

/-- `rsqrt14_f64` (R168, R171): exact on 2^-2n (R173), otherwise the free value of the part inside the limits of R172
and R175. -/
def rsqrt14F64 (e : Elem) : Elem :=
  if isEvenPower e then evenPowerRoot e
  else if Admissible e (Config.rsqrt14Draw e) then Config.rsqrt14Draw e
  else someRoot e

/-! ## The element function -/

/-- DAZ (R163): a denormal becomes the zero of its sign. -/
def flushInput (e : Elem) (daz : Bool) : Elem :=
  if isDenormal e && daz then e &&& 0x8000000000000000#64 else e

/-- `RSQRT14(e, daz)` (R160): the first case that applies. -/
def rsqrt14 (e : Elem) (daz : Bool) : Elem :=
  if isNan e then e ||| 0x0008000000000000#64
  else if isZero (flushInput e daz) then flushInput e daz ||| 0x7FF0000000000000#64
  else if signBit (flushInput e daz) then Config.qnanIndefinite
  else if isInf (flushInput e daz) then 0#64
  else rsqrt14F64 (flushInput e daz)

end Sys2Proof.Machine
end

