-- ==== Sys2Proof/Machine/Vrsqrt14.lean ====
section
/-!
DEFINITION. VRSQRT14PD (spec/40_vrsqrt14pd.md): the meaning the three forms share and the meaning of each form.
-/

namespace Sys2Proof.Machine

/-- The #UD conditions that depend on the state (60_exceptions.md R193 (f) to (h), R194, R209): the mode, the enabling
of extended state, the CPUID flags the form needs. -/
def undefinedIn (f : Form) (s : State) : Bool :=
  !s.modeValid || !s.stateEnabled || !s.part.avx512f || (f != .zmm && !s.part.avx512vl)

/-- Why the instruction is not entered, if it is not: the range of its text (10_state.md R24), #UD and its conflict
with the length limit (60_exceptions.md R193, R201), the refused encodings (30_encoding.md R105, R88, R99), the length
limit (R81), #NM (60_exceptions.md R195), in the order of 30_encoding.md R109 and 60_exceptions.md R201. -/
def entryStop (f : Form) (o : Operands) (s : State) : Option Stop :=
  if !s.textInRange o.length then some (.refusal .pcOutOfRange)
  else if undefinedIn f s then
    some (if maxLength < o.length then .refusal .overlongUndefined else s.raise .invalidOpcode)
  else if !o.maskingWf then some (.refusal .zeroingWithoutMask)
  else if s.mode == .mode32 && !o.lowRegisters then some (.refusal .registerNotIn32BitMode)
  else if s.mode == .mode32 && o.hasAddressSize then some (.refusal .addressSize16)
  else if maxLength < o.length then some (s.raise .instructionTooLong)
  else if s.cr0Ts then some (s.raise .deviceNotAvailable)
  else none

/-- Element `j` of the destination after the instruction (40_vrsqrt14pd.md R135 to R139): the computed result where the
mask bit is 1, else the old element or 0; 0 at and above VL. -/
def resultElem (f : Form) (o : Operands) (s : State) (j : Nat) : Elem :=
  if formKl f ≤ j then 0#64
  else if maskBit o s j then rsqrt14 (sourceElem f o s j) (mxcsrDaz s.mxcsr)
  else if o.zeroing then 0#64
  else vecElem (s.getV o.dest) j

/-- The state after a completed instruction (40_vrsqrt14pd.md R130): the destination written whole, `pc` advanced. -/
def completed (f : Form) (o : Operands) (s : State) : State :=
  (s.setV o.dest (vecOf (resultElem f o s))).advance o.length

/-- `exec_VRSQRT14PD` (40_vrsqrt14pd.md R130): all reads see the state before the writes (00_scope.md R11). -/
def execVrsqrt14pd (f : Form) (o : Operands) (s : State) : Host.Outcome State Fault Refusal :=
  match entryStop f o s with
  | some stop => stop.outcome
  | none =>
    match sourceStop f o s with
    | some stop => stop.outcome
    | none => .next (completed f o s)

/-- VRSQRT14PD, the 128-bit form (40_vrsqrt14pd.md R131). -/
def execVrsqrt14pd128 (o : Operands) (s : State) : Host.Outcome State Fault Refusal := execVrsqrt14pd .xmm o s

/-- VRSQRT14PD, the 256-bit form (40_vrsqrt14pd.md R132). -/
def execVrsqrt14pd256 (o : Operands) (s : State) : Host.Outcome State Fault Refusal := execVrsqrt14pd .ymm o s

/-- VRSQRT14PD, the 512-bit form (40_vrsqrt14pd.md R133). -/
def execVrsqrt14pd512 (o : Operands) (s : State) : Host.Outcome State Fault Refusal := execVrsqrt14pd .zmm o s

end Sys2Proof.Machine
end

