-- ==== Sys2Proof/Machine/Dispatch.lean ====
section
/-!
DEFINITION. The dispatch: one arm for each instruction, each a direct call of its meaning.
-/

namespace Sys2Proof.Machine

def exec (i : Instr) (s : State) : Host.Outcome State Fault Refusal :=
  match i with
  | .vrsqrt14pd128 o => Sys2Proof.Machine.execVrsqrt14pd128 o s
  | .vrsqrt14pd256 o => Sys2Proof.Machine.execVrsqrt14pd256 o s
  | .vrsqrt14pd512 o => Sys2Proof.Machine.execVrsqrt14pd512 o s

end Sys2Proof.Machine
end

