-- ==== Sys2Proof/Machine/Launch.lean ====
section
/-!
DEFINITION. The launch (spec/70_reset_and_hazards.md R231 to R234): what software the spec does not describe has done
before an instruction can execute, and the placing of a program, which comes from outside the machine. No step does
any of this.
-/

namespace Sys2Proof.Machine

/-- Steps (1) to (5) of the boot requirements (70_reset_and_hazards.md R232): a mode in which the instruction is valid
(64-bit mode, unless it is one already), the CPUID flags, CR4.OSXSAVE, XCR0 bits 0, 1, 2, 5, 6, 7, and CR0.TS clear. -/
def State.enable (s : State) : State :=
  { s with
    mode := if s.modeValid then s.mode else .mode64
    cr4Osxsave := true
    xcr0 := s.xcr0 ||| 0xE7#64
    cr0Ts := false
    part := { s.part with avx512f := true, avx512vl := true } }

/-- `bytes` placed as the text at `pc` (70_reset_and_hazards.md R233). -/
def State.placeText (s : State) (bytes : List Byte) : State := { s with mem := s.mem.storeAll s.textAddr bytes }

/-- Step (8) of the boot requirements (70_reset_and_hazards.md R232): the bytes of the memory operand of `i` admitted,
those not admitted before with a free value (70_reset_and_hazards.md R231; log entry 32). -/
def State.admitOperand (s : State) (i : Instr) : State :=
  match i.operands.src with
  | .reg _ => s
  | .mem bcast a =>
    let addr := operandByte i.form i.operands bcast a s
    { s with
      mem := (List.range (disp8Factor i.form bcast)).foldl
        (fun m k => if s.present (addr k) then m else m.store (addr k) (Config.launchDraw (addr k))) s.mem }

/-- The launch of one table word: enabled, the word's bytes at `pc`, its memory operand admitted. -/
def State.launchWord (s : State) (nbits w : Nat) : State :=
  let t := s.enable.placeText (tableBytes nbits w)
  match decode t.mode t.text with
  | .instr i => t.admitOperand i
  | _ => t

end Sys2Proof.Machine
end

