-- ==== Sys2Proof/Machine/Step.lean ====
section
/-!
DEFINITION. One step (spec/70_reset_and_hazards.md R233): the bytes at `pc` are decoded in the state's mode
(spec/30_encoding.md R109) and executed (spec/40_vrsqrt14pd.md R130).
-/

namespace Sys2Proof.Machine

/-- One step of the machine (60_exceptions.md R190). -/
def step (s : State) : Host.Outcome State Fault Refusal :=
  match decode s.mode s.text with
  | .instr i => exec i s
  | .undefined n => (s.undefinedEncoding n).outcome
  | .rejected .outOfBytes => .refused .textNotAdmitted
  | .rejected r => .refused (.notVrsqrt14pd r)

/-- `s` launched with the instruction of a table word at `pc` (70_reset_and_hazards.md R231, R232; log entry 1). -/
def State.withFetchWord (s : State) (nbits w : Nat) : State := s.launchWord nbits w

end Sys2Proof.Machine
end

