-- ==== Sys2Proof/Safety.lean ====
section
/-!
DEFINITION. The terms claims are stated in: the launch premises (spec/70_reset_and_hazards.md R231), the conditions
under which an instruction executes, what it leaves as it was, the machine's invariant, and the end of a run (R233).
-/

namespace Sys2Proof.Machine

/-- The launch premises every claim about a successful run of `program` takes (70_reset_and_hazards.md R231), with the
program's instructions back to back from `pc` on (R233). No debug feature is armed, because there is none (log entry 24). -/
structure Launched (program : List Instr) (s : State) : Prop where
  mode     : s.mode = .mode64 ∨ s.mode = .mode32
  enabled  : s.stateEnabled = true
  ts       : s.cr0Ts = false
  avx512f  : s.part.avx512f = true
  avx512vl : (∃ i ∈ program, i.form ≠ .zmm) → s.part.avx512vl = true
  ac       : s.acEnabled = false
  mxcsr    : mxcsrReserved s.mxcsr = 0#16
  kw       : 8 ≤ s.opmask.kw
  text     : ∃ rest, s.text = program.flatMap encode ++ rest

/-- What must hold of the state and the operands for a form to be entered: a valid mode, enabled state, the CPUID flags
of the form and CR0.TS clear (60_exceptions.md R193 to R195), text inside the range of 10_state.md R24, at most 15
bytes (30_encoding.md R81), no zeroing without a mask (R105), in 32-bit mode only what it can name (R88, R99). -/
structure Enterable (f : Form) (o : Operands) (s : State) : Prop where
  mode     : s.mode = .mode64 ∨ s.mode = .mode32
  enabled  : s.stateEnabled = true
  avx512f  : s.part.avx512f = true
  avx512vl : f = .zmm ∨ s.part.avx512vl = true
  ts       : s.cr0Ts = false
  text     : s.textInRange o.length = true
  length   : o.length ≤ 15
  masking  : o.zeroing = true → o.mask ≠ 0#3
  fits     : s.mode = .mode32 → o.fits32 = true

/-- What must hold for a memory operand to be read: every accessed byte inside its segment, admitted and ordinary
(20_memory.md R56, R59, R63), and no misaligned m64bcst access under alignment checking (R55). -/
structure Readable (f : Form) (o : Operands) (bcast : Bool) (a : Addr) (s : State) : Prop where
  segment  : ∀ i ∈ accessedBytes f o bcast s, segmentViolation f o bcast a s i = false
  admitted : ∀ i ∈ accessedBytes f o bcast s, (s.mem.byte? (operandByte f o bcast a s i).toNat).isSome = true
  ordinary : ∀ i ∈ accessedBytes f o bcast s, s.isDevice (operandByte f o bcast a s i) = false
  aligned  : bcast = true → s.acEnabled = true → accessedBytes f o bcast s ≠ [] →
    (operandByte f o bcast a s 0).extractLsb' 0 3 = 0#3

/-- The source can be read: a register always, a memory operand as `Readable` says. -/
def SourceReadable (f : Form) (o : Operands) (s : State) : Prop :=
  match o.src with
  | .reg _ => True
  | .mem bcast a => Readable f o bcast a s

/-- `t` is `s` but for vector register `d` and the instruction pointer (10_state.md R20): every other register, flag,
control bit and byte of memory is as it was. -/
structure SameExcept (d : VecNum) (s t : State) : Prop where
  x       : t.x = s.x
  v       : ∀ r, r ≠ d → t.getV r = s.getV r
  opmask  : t.opmask = s.opmask
  rflags  : t.rflags = s.rflags
  mxcsr   : t.mxcsr = s.mxcsr
  control : t.mode = s.mode ∧ t.cpl = s.cpl ∧ t.cr0Ts = s.cr0Ts ∧ t.cr0Am = s.cr0Am ∧ t.cr4Osxsave = s.cr4Osxsave ∧
    t.cr4Osxmmexcpt = s.cr4Osxmmexcpt ∧ t.xcr0 = s.xcr0 ∧ t.cr2 = s.cr2 ∧ t.segBase = s.segBase ∧ t.part = s.part
  bytes   : ∀ a, t.mem.byte? a = s.mem.byte? a
  memory  : t.mem = s.mem ∧ t.devices = s.devices

/-- The invariant every step keeps: memory in canonical form, the reserved bits of MXCSR zero (10_state.md R28), opmask
registers of at least eight bits (00_scope.md R8), and EIP zero-extended outside 64-bit mode (R23). -/
structure Inv (s : State) : Prop where
  memory : s.mem.wf
  mxcsr  : mxcsrReserved s.mxcsr = 0#16
  kw     : 8 ≤ s.opmask.kw
  pc     : s.mode ≠ .mode64 → s.pc.toNat < 2 ^ 32

/-- The first `kl` elements of the destination in `t`, for the instruction started in `s` (40_vrsqrt14pd.md R135 to
R138): the computed result where no writemask is named or the mask bit is 1, else the old element or 0. -/
def ElementsWritten (kl : Nat) (f : Form) (o : Operands) (s t : State) : Prop :=
  ∀ j, j < kl →
    vecElem (t.getV o.dest) j =
      if o.mask = 0#3 ∨ s.kBit o.mask j = true then rsqrt14 (sourceElem f o s j) (mxcsrDaz s.mxcsr)
      else if o.zeroing = true then 0#64
      else vecElem (s.getV o.dest) j

/-- The bytes that raise #UD where they stand before 62H (30_encoding.md R98). -/
def forbiddenByte (m : Mode) (b : Byte) : Bool :=
  [0xF0#8, 0x66#8, 0xF2#8, 0xF3#8].contains b || (m == .mode64 && b.extractLsb' 4 4 == 4#4)

/-- The bytes that may stand before 62H, allowed or not (30_encoding.md R98). -/
def precedingByte (m : Mode) (b : Byte) : Bool :=
  [0x26#8, 0x2E#8, 0x36#8, 0x3E#8, 0x64#8, 0x65#8, 0x67#8].contains b || forbiddenByte m b

/-- `ilen` from the bytes, as 30_encoding.md R100 gives it: the number of bytes before 62H, ModRM, and the byte after
ModRM, which is SIB where there is one. -/
def ilen (nlegacy : Nat) (modrm sib : Byte) : Nat :=
  let md := modrm.extractLsb' 6 2
  let rm := modrm.extractLsb' 0 3
  nlegacy + 4 + 1 + 1 + (if md ≠ 3#2 ∧ rm = 4#3 then 1 else 0) +
    (if md = 1#2 then 1
     else if md = 2#2 then 4
     else if md = 0#2 ∧ rm = 5#3 then 4
     else if md = 0#2 ∧ rm = 4#3 ∧ sib.extractLsb' 0 3 = 5#3 then 4
     else 0)

/-- The displacement of a memory operand as a signed integer, with the factor `n` for disp8 (30_encoding.md R92, R96). -/
def dispInt (n : Nat) : Disp → Int
  | .none => 0
  | .disp8 d => d.toInt * n
  | .disp32 d => d.toInt

/-- `index * scale` over the naturals, 0 where there is no index (30_encoding.md R93, R94). -/
def indexNat (s : State) (scale : BitVec 2) (index : GprNum) : Nat :=
  if index = 4#4 then 0 else (s.getX index).toNat * 2 ^ scale.toNat

/-- `base + index * scale + disp` over the integers (20_memory.md R58), N being 8 for broadcast and else 16, 32 or 64
(30_encoding.md R96). -/
def addressInt (f : Form) (o : Operands) (bcast : Bool) (a : Addr) (s : State) : Int :=
  let n := if bcast then 8 else match f with | .xmm => 16 | .ymm => 32 | .zmm => 64
  match a with
  | .base g d _ => (s.getX g).toNat + dispInt n d
  | .sib sc i g d => (s.getX g).toNat + indexNat s sc i + dispInt n d
  | .sibNoBase sc i d _ => indexNat s sc i + d.toInt
  | .direct d _ _ => (if s.mode = .mode64 then (s.pc.toNat : Int) + o.length else 0) + d.toInt

/-- `match` of a row of the opcode table, the byte at the lowest address most significant (30_encoding.md R101). -/
def rowMatch : Form → BitVec 40
  | .xmm => 0x6202FD084E#40
  | .ymm => 0x6202FD284E#40
  | .zmm => 0x6202FD484E#40

/-- An outcome with its next state, if it has one, changed by `g`. -/
def mapNext (g : State → State) : Host.Outcome State Fault Refusal → Host.Outcome State Fault Refusal
  | .next t => .next (g t)
  | .fault f => .fault f
  | .refused r => .refused r

/-- The run of a program that ends at `stop` is over (70_reset_and_hazards.md R233). -/
def Final (stop : Word) (s : State) : Prop := s.pc = stop

end Sys2Proof.Machine
end

