-- ==== Sys2Proof/Certificates/Slice0/Obligations.lean ====
section
/-!
DEFINITION. The statements for the provers, each named after what it states. OBLIGATIONS.json lists them with the
rules of spec/ they formalise.
-/

open Sys2Proof Sys2Proof.Machine

/-! ## Encoding -/

/-- In 64-bit mode, decoding the encoding of an instruction, whatever bytes follow, gives it back. -/
def Obligations.DecodeOfEncodeIn64BitMode : Prop :=
  ∀ (i : Instr) (rest : List Byte), i.operands.src.wf = true → decode .mode64 (encode i ++ rest) = .instr i

/-- Outside 64-bit mode the same holds of every instruction whose R and X bits are 0 (R82). R82 speaks of 32-bit mode;
that bytes are read in real-address and virtual-8086 mode as in 32-bit mode is the model's choice (log entry 19). -/
def Obligations.DecodeOfEncodeOutside64BitMode : Prop :=
  ∀ (m : Mode) (i : Instr) (rest : List Byte), m ≠ .mode64 → i.operands.src.wf = true →
    i.operands.dest.getLsbD 3 = false → i.operands.src.extX = false →
    decode m (encode i ++ rest) = .instr i

/-- Bytes that decode to an instruction begin with its encoding: no bit that the encoding has is dropped. Real-address and
virtual-8086 mode read the bytes as 32-bit mode does (log entry 19). -/
def Obligations.DecodedBytesAreTheEncoding : Prop :=
  ∀ (m : Mode) (bs : List Byte) (i : Instr), decode m bs = .instr i →
    i.operands.src.wf = true ∧ ∃ rest, bs = encode i ++ rest

/-- R101 with R90: five bytes are read as the row of form `f` exactly when they match it under the mask, but for
`mod` = 11b with `b` = 1. -/
def Obligations.RowSelection : Prop :=
  ∀ (f : Form) (b0 b1 b2 b3 b4 modrm : Byte) (tail : List Byte), 5 ≤ tail.length →
    ((∃ o : Operands, o.legacy = [] ∧
        decode .mode64 (b0 :: b1 :: b2 :: b3 :: b4 :: modrm :: tail) = .instr (f.instr o)) ↔
      ((b0 ++ b1 ++ b2 ++ b3 ++ b4 : BitVec 40) &&& 0xFF0FFF68FF#40 = rowMatch f ∧
        ¬(modrm.extractLsb' 6 2 = 3#2 ∧ b3.getLsbD 4 = true)))

/-- R115: bytes of the VRSQRT14PD space that match no row raise #UD (R102 to R104), also behind up to four legacy
bytes. Real-address and virtual-8086 mode read the bytes as 32-bit mode does (log entry 19). -/
def Obligations.SpaceOutsideRowsRaisesInvalidOpcode : Prop :=
  ∀ (s : State) (ls : List LegacyPrefix) (b0 b1 b2 b3 b4 modrm : Byte) (tail : List Byte),
    s.text = ls.map LegacyPrefix.byte ++ b0 :: b1 :: b2 :: b3 :: b4 :: modrm :: tail →
    ls.length ≤ 4 → 5 ≤ tail.length →
    (s.mode = .mode64 ∨ b1.extractLsb' 6 2 = 3#2) → s.textInRange 15 = true →
    (b0 ++ b1 ++ b2 ++ b3 ++ b4 : BitVec 40) &&& 0xFF0F8700FF#40 = 0x620285004E#40 →
    (∀ f, (b0 ++ b1 ++ b2 ++ b3 ++ b4 : BitVec 40) &&& 0xFF0FFF68FF#40 ≠ rowMatch f) →
    step s = .fault (.invalidOpcode s.pc)

/-- R102: EVEX.vvvv other than 1111b, with the rest of the pattern matching, raises #UD, also behind up to four
legacy bytes. Real-address and virtual-8086 mode read the bytes as 32-bit mode does (log entry 19). -/
def Obligations.VvvvReservedRaisesInvalidOpcode : Prop :=
  ∀ (s : State) (ls : List LegacyPrefix) (p0 p1 p2 modrm : Byte) (tail : List Byte),
    s.text = ls.map LegacyPrefix.byte ++ 0x62#8 :: p0 :: p1 :: p2 :: 0x4E#8 :: modrm :: tail →
    ls.length ≤ 4 → 5 ≤ tail.length →
    (s.mode = .mode64 ∨ p0.extractLsb' 6 2 = 3#2) → s.textInRange 15 = true →
    p0.extractLsb' 0 4 = 2#4 → p1.getLsbD 7 = true → p1.extractLsb' 0 3 = 5#3 →
    p1.extractLsb' 3 4 ≠ 15#4 →
    step s = .fault (.invalidOpcode s.pc)

/-- R90: a register source with `b` = 1 raises #UD, also behind up to nine legacy bytes. Real-address and
virtual-8086 mode read the bytes as 32-bit mode does (log entry 19). -/
def Obligations.RegisterSourceWithBroadcastBitRaisesInvalidOpcode : Prop :=
  ∀ (s : State) (ls : List LegacyPrefix) (p0 p1 p2 modrm : Byte) (tail : List Byte),
    s.text = ls.map LegacyPrefix.byte ++ 0x62#8 :: p0 :: p1 :: p2 :: 0x4E#8 :: modrm :: tail →
    ls.length ≤ 9 → (s.mode = .mode64 ∨ p0.extractLsb' 6 2 = 3#2) → s.textInRange 15 = true →
    p0.extractLsb' 0 4 = 2#4 → p1.getLsbD 7 = true → p1.extractLsb' 0 3 = 5#3 →
    modrm.extractLsb' 6 2 = 3#2 → p2.getLsbD 4 = true →
    step s = .fault (.invalidOpcode s.pc)

/-- R98: LOCK, 66H, F2H, F3H and, in 64-bit mode, a REX byte before an instruction make it raise #UD, also
where other such bytes follow (log entry 31). Real-address and virtual-8086 mode read the bytes as 32-bit mode does (log
entry 19). -/
def Obligations.ForbiddenLegacyByteRaisesInvalidOpcode : Prop :=
  ∀ (s : State) (b : Byte) (i : Instr) (rest : List Byte),
    s.text = b :: (encode i ++ rest) → i.operands.src.wf = true →
    (s.mode = .mode64 ∨ (i.operands.dest.getLsbD 3 = false ∧ i.operands.src.extX = false)) →
    (b ∈ [0xF0#8, 0x66#8, 0xF2#8, 0xF3#8] ∨ (s.mode = .mode64 ∧ b.extractLsb' 4 4 = 4#4)) →
    i.operands.length + 1 ≤ 15 → s.textInRange (i.operands.length + 1) = true →
    step s = .fault (.invalidOpcode s.pc)

/-- Bytes written out from the encoding rules decode to the instructions they stand for (vectors E1, E2, E3, E9, E10,
E19, E20 of 95_test_vectors.md). -/
def Obligations.SpecWordsDecode : Prop :=
  decode .mode64 [0x62#8, 0xF2#8, 0xFD#8, 0x48#8, 0x4E#8, 0xCA#8] =
      .instr (.vrsqrt14pd512 ⟨[], 1#5, .reg 2#5, 0#3, false⟩) ∧
  decode .mode64 [0x62#8, 0xF2#8, 0xFD#8, 0x89#8, 0x4E#8, 0xCA#8] =
      .instr (.vrsqrt14pd128 ⟨[], 1#5, .reg 2#5, 1#3, true⟩) ∧
  decode .mode64 [0x62#8, 0xF2#8, 0xFD#8, 0x2A#8, 0x4E#8, 0x18#8] =
      .instr (.vrsqrt14pd256 ⟨[], 3#5, .mem false (.base 0#4 .none false), 2#3, false⟩) ∧
  decode .mode64 [0x62#8, 0x72#8, 0xFD#8, 0xBB#8, 0x4E#8, 0x0D#8, 0x10#8, 0x00#8, 0x00#8, 0x00#8] =
      .instr (.vrsqrt14pd256 ⟨[], 9#5, .mem true (.direct 0x10#32 false false), 3#3, true⟩) ∧
  decode .mode64 [0x62#8, 0x42#8, 0xFD#8, 0x18#8, 0x4E#8, 0x7D#8, 0x00#8] =
      .instr (.vrsqrt14pd128 ⟨[], 31#5, .mem true (.base 13#4 (.disp8 0#8) false), 0#3, false⟩) ∧
  decode .mode64 [0x62#8, 0xB2#8, 0xFD#8, 0x48#8, 0x4E#8, 0x54#8, 0xB7#8, 0xFE#8] =
      .instr (.vrsqrt14pd512 ⟨[], 2#5, .mem false (.sib 2#2 14#4 7#4 (.disp8 0xFE#8)), 0#3, false⟩) ∧
  decode .mode64 [0x67#8, 0x62#8, 0xF2#8, 0xFD#8, 0x48#8, 0x4E#8, 0x10#8] =
      .instr (.vrsqrt14pd512 ⟨[.addressSize], 2#5, .mem false (.base 0#4 .none false), 0#3, false⟩)

/-- R109 steps 2 and 3, with R82, R106, R107 and 00_scope.md R6(a): bytes that are not VRSQRT14PD are refused by name,
whatever bytes of R98 stand before them: an opcode byte other than 62H; outside 64-bit mode 62H with bits 7:6 of the next
byte not 11b; reserved EVEX bits; another map, mandatory byte, W or opcode. R82 speaks of 32-bit mode; that real-address
and virtual-8086 mode read the bytes alike is the model's choice (log entry 19). -/
def Obligations.ForeignEncodingsRefused : Prop :=
  ∀ (s : State) (ls : List Byte) (b : Byte) (rest : List Byte), s.text = ls ++ b :: rest →
    (∀ x ∈ ls, precedingByte s.mode x = true) → precedingByte s.mode b = false →
    (b ≠ 0x62#8 → step s = .refused (.notVrsqrt14pd .notEvex)) ∧
    (∀ (p0 p1 p2 op modrm : Byte) (tail : List Byte), b = 0x62#8 → rest = p0 :: p1 :: p2 :: op :: modrm :: tail →
      (s.mode ≠ .mode64 → p0.extractLsb' 6 2 ≠ 3#2 → step s = .refused (.notVrsqrt14pd .bound)) ∧
      ((s.mode = .mode64 ∨ p0.extractLsb' 6 2 = 3#2) →
        (p0.extractLsb' 2 2 ≠ 0#2 ∨ p1.getLsbD 2 = false →
          step s = .refused (.notVrsqrt14pd .reservedEvexBits)) ∧
        (p0.extractLsb' 2 2 = 0#2 → p1.getLsbD 2 = true →
          (p0.extractLsb' 0 2 ≠ 2#2 ∨ p1.extractLsb' 0 2 ≠ 1#2 ∨ p1.getLsbD 7 = false ∨ op ≠ 0x4E#8) →
          step s = .refused (.notVrsqrt14pd .otherInstruction))))

/-- The model's reading of R201(1) (log entry 11, and entry 19 for real-address and virtual-8086 mode): where the bytes
that can be read at `pc` are a proper beginning of an instruction, the step is refused. -/
def Obligations.TextThatEndsIsRefused : Prop :=
  ∀ (s : State) (i : Instr) (more : List Byte), encode i = s.text ++ more → more ≠ [] → i.operands.src.wf = true →
    (s.mode = .mode64 ∨ (i.operands.dest.getLsbD 3 = false ∧ i.operands.src.extX = false)) →
    step s = .refused .textNotAdmitted

/-- R81, R100: without legacy bytes an instruction is 6 to 11 bytes long, and each legacy byte adds one. -/
def Obligations.InstructionLengths : Prop :=
  ∀ (i : Instr),
    i.operands.legacy.length + 6 ≤ (encode i).length ∧ (encode i).length ≤ i.operands.legacy.length + 11

/-! ## Steps -/

/-- When the bytes at `pc` decode to an instruction, a step is that instruction's execution at the same state. The
model's step does nothing around it: the advance of `pc` is the instruction's own. -/
def Obligations.StepRunsDecodedInstruction : Prop :=
  ∀ (s : State) (i : Instr), decode s.mode s.text = .instr i → step s = exec i s

/-- R231, R233: in a launched state the first instruction of the program, well-formed, its text in range and its source
readable, runs and completes, and `pc` is then at the second. -/
def Obligations.LaunchedProgramRunsItsFirstInstruction : Prop :=
  ∀ (i : Instr) (program : List Instr) (s : State), Launched (i :: program) s → i.wf = true →
    s.textInRange i.operands.length = true → (s.mode = .mode32 → i.operands.fits32 = true) →
    SourceReadable i.form i.operands s →
    ∃ t, step s = .next t ∧ exec i s = .next t ∧ t.pc = s.pc + Word.ofNat (encode i).length

/-- R80: the bytes of ordinary memory at `pc` and after, in address order, are what is decoded. Outside 64-bit mode the base
of CS is added, the model's choice (log entry 10). -/
def Obligations.TextIsTheBytesAtPc : Prop :=
  ∀ (s : State) (bs : List Byte), bs.length ≤ 15 →
    (∀ (k : Nat) (h : k < bs.length), s.ordinary? (s.textAddr k) = some bs[k]) →
    ∃ rest, s.text = bs ++ rest

/-! ## The element function -/

/-- R169, the decision table of RSQRT14. -/
def Obligations.ElementDecisionTable : Prop :=
  ∀ (e : Elem) (daz : Bool),
    (isNan e = true → e.getLsbD 51 = true → rsqrt14 e daz = e) ∧
    (isNan e = true → e.getLsbD 51 = false →
      ∀ i, i < 64 → (rsqrt14 e daz).getLsbD i = if i = 51 then true else e.getLsbD i) ∧
    (e = 0x0000000000000000#64 → rsqrt14 e daz = 0x7FF0000000000000#64) ∧
    (e = 0x8000000000000000#64 → rsqrt14 e daz = 0xFFF0000000000000#64) ∧
    (isDenormal e = true → signBit e = false → daz = true → rsqrt14 e daz = 0x7FF0000000000000#64) ∧
    (isDenormal e = true → signBit e = true → daz = true → rsqrt14 e daz = 0xFFF0000000000000#64) ∧
    (isDenormal e = true → signBit e = false → daz = false →
      rsqrt14 e daz = rsqrt14F64 e ∧ isNormal (rsqrt14F64 e) = true) ∧
    (isDenormal e = true → signBit e = true → daz = false → rsqrt14 e daz = 0xFFF8000000000000#64) ∧
    (isNormal e = true → signBit e = false → rsqrt14 e daz = rsqrt14F64 e) ∧
    (isNormal e = true → signBit e = true → rsqrt14 e daz = 0xFFF8000000000000#64) ∧
    (e = 0x7FF0000000000000#64 → rsqrt14 e daz = 0x0000000000000000#64) ∧
    (e = 0xFFF0000000000000#64 → rsqrt14 e daz = 0xFFF8000000000000#64)

/-- R172: the relative error of the approximation is less than 2^-14, over the reals, whatever the part's free value
is. -/
def Obligations.RelativeErrorBound : Prop :=
  ∀ (e : Elem), isPositiveFinite e = true →
    |((elemValue (rsqrt14F64 e) : ℚ) : ℝ) - 1 / Real.sqrt ((elemValue e : ℚ) : ℝ)| <
      (2 : ℝ) ^ (-14 : ℤ) * (1 / Real.sqrt ((elemValue e : ℚ) : ℝ))

/-- R173: on an input 2^-2n, normal or denormal, the approximation is exactly 2^n. -/
def Obligations.EvenPowersAreExact : Prop :=
  ∀ (e : Elem) (n : ℤ), isPositiveFinite e = true → elemValue e = (2 : ℚ) ^ (-2 * n) →
    elemValue (rsqrt14F64 e) = (2 : ℚ) ^ n

/-- R175: the approximation of every positive finite nonzero input is a positive normal number. -/
def Obligations.ApproximationIsPositiveNormal : Prop :=
  ∀ (e : Elem), isPositiveFinite e = true →
    isNormal (rsqrt14F64 e) = true ∧ signBit (rsqrt14F64 e) = false ∧ isZero (rsqrt14F64 e) = false ∧
      isDenormal (rsqrt14F64 e) = false ∧ isInf (rsqrt14F64 e) = false ∧ isNan (rsqrt14F64 e) = false

/-! ## Completion, results and frames -/

/-- R130, R131: the 128-bit form completes; two elements are written as the mask says, bits 511:128 are zero, `pc`
advances by the length, and nothing else changes. -/
def Obligations.Xmm128Completes : Prop :=
  ∀ (o : Operands) (s : State), Enterable .xmm o s → SourceReadable .xmm o s →
    ∃ t, exec (.vrsqrt14pd128 o) s = .next t ∧ t.pc = s.pc + Word.ofNat o.length ∧
      ElementsWritten 2 .xmm o s t ∧ (t.getV o.dest).extractLsb' 128 384 = 0#384 ∧ SameExcept o.dest s t

/-- R130, R132: the 256-bit form completes; four elements, bits 511:256 zero. -/
def Obligations.Ymm256Completes : Prop :=
  ∀ (o : Operands) (s : State), Enterable .ymm o s → SourceReadable .ymm o s →
    ∃ t, exec (.vrsqrt14pd256 o) s = .next t ∧ t.pc = s.pc + Word.ofNat o.length ∧
      ElementsWritten 4 .ymm o s t ∧ (t.getV o.dest).extractLsb' 256 256 = 0#256 ∧ SameExcept o.dest s t

/-- R130, R133: the 512-bit form completes; eight elements, no bits above. -/
def Obligations.Zmm512Completes : Prop :=
  ∀ (o : Operands) (s : State), Enterable .zmm o s → SourceReadable .zmm o s →
    ∃ t, exec (.vrsqrt14pd512 o) s = .next t ∧ t.pc = s.pc + Word.ofNat o.length ∧
      ElementsWritten 8 .zmm o s t ∧ SameExcept o.dest s t

/-- R134, R141: with a register source, also the destination itself, every selected element is RSQRT14 of the source
register's element before the instruction. -/
def Obligations.RegisterSourceResult : Prop :=
  ∀ (f : Form) (o : Operands) (r : VecNum) (s : State), o.src = .reg r → Enterable f o s →
    ∃ t, exec (f.instr o) s = .next t ∧
      ∀ j, j < formKl f → (o.mask = 0#3 ∨ s.kBit o.mask j = true) →
        vecElem (t.getV o.dest) j = rsqrt14 (vecElem (s.getV r) j) (mxcsrDaz s.mxcsr)

/-- R51, R53: element `j` of a full-width memory operand is its bytes 8j to 8j+7, the lowest address least
significant. -/
def Obligations.FullWidthElementIsLittleEndian : Prop :=
  ∀ (f : Form) (o : Operands) (a : Addr) (s : State) (j : Nat) (b : Nat → Byte), o.src = .mem false a →
    (∀ i, i < 8 → s.mem.byte? (operandByte f o false a s (8 * j + i)).toNat = some (b i)) →
    ∀ i, i < 8 → (sourceElem f o s j).extractLsb' (8 * i) 8 = b i

/-- R52, R53: every element of a broadcast operand is the eight bytes at its address. -/
def Obligations.BroadcastElementIsTheSameForAll : Prop :=
  ∀ (f : Form) (o : Operands) (a : Addr) (s : State) (b : Nat → Byte), o.src = .mem true a →
    (∀ i, i < 8 → s.mem.byte? (operandByte f o true a s i).toNat = some (b i)) →
    ∀ j i, i < 8 → (sourceElem f o s j).extractLsb' (8 * i) 8 = b i

/-- R139: the destination's bits at and above VL are zero after every completed instruction, whatever the mask. -/
def Obligations.UpperBitsAreZeroed : Prop :=
  ∀ (f : Form) (o : Operands) (s t : State), exec (f.instr o) s = .next t →
    ∀ i, formVl f ≤ i → (t.getV o.dest).getLsbD i = false

/-- R137: under merging-masking an element whose mask bit is 0 keeps its value. -/
def Obligations.MergingKeepsMaskedElements : Prop :=
  ∀ (f : Form) (o : Operands) (s t : State), exec (f.instr o) s = .next t → o.zeroing = false → o.mask ≠ 0#3 →
    ∀ j, j < formKl f → s.kBit o.mask j = false →
      vecElem (t.getV o.dest) j = vecElem (s.getV o.dest) j

/-- R138: under zeroing-masking an element whose mask bit is 0 becomes 0. -/
def Obligations.ZeroingClearsMaskedElements : Prop :=
  ∀ (f : Form) (o : Operands) (s t : State), exec (f.instr o) s = .next t → o.zeroing = true →
    ∀ j, j < formKl f → s.kBit o.mask j = false → vecElem (t.getV o.dest) j = 0#64

/-- R26: no completed instruction changes an exception flag of MXCSR, nor any bit of MXCSR or RFLAGS (R25). -/
def Obligations.FlagsAreNotAffected : Prop :=
  ∀ (i : Instr) (s t : State), exec i s = .next t →
    mxcsrFlags t.mxcsr = mxcsrFlags s.mxcsr ∧ t.mxcsr = s.mxcsr ∧ t.rflags = s.rflags

/-! ## Independence -/

/-- R27, R145: the outcome depends on MXCSR through DAZ alone, so not on rounding control, masks, flags or FTZ. -/
def Obligations.OnlyDazOfMxcsrMatters : Prop :=
  ∀ (i : Instr) (s : State) (m : BitVec 32), mxcsrDaz m = mxcsrDaz s.mxcsr →
    exec i { s with mxcsr := m } = mapNext (fun t => { t with mxcsr := m }) (exec i s)

/-- R144 with R33, R34: opmask bits at and above KL, every opmask register not named, with `aaa` = 0 all of them, and the
width KW do not matter, and no opmask register is written. -/
def Obligations.OnlyNamedMaskBitsMatter : Prop :=
  ∀ (f : Form) (o : Operands) (s : State) (m : Opmasks),
    (o.mask ≠ 0#3 → ∀ j, j < formKl f → m.bit o.mask j = s.opmask.bit o.mask j) →
    exec (f.instr o) { s with opmask := m } = mapNext (fun t => { t with opmask := m }) (exec (f.instr o) s)

/-- R142: a source register's bits above VL do not matter to the destination, also where both are one register; a
source other than the destination is left as it was, and the same register's bits above VL become 0. -/
def Obligations.SourceBitsAboveVlDoNotMatter : Prop :=
  ∀ (f : Form) (o : Operands) (r : VecNum) (s t : State) (w : BitVec Config.maxvl), o.src = .reg r →
    (∀ j, j < formKl f → vecElem w j = vecElem (s.getV r) j) → exec (f.instr o) s = .next t →
    (∃ u, exec (f.instr o) (s.setV r w) = .next u ∧ u.getV o.dest = t.getV o.dest ∧ u.pc = t.pc) ∧
      (r ≠ o.dest → t.getV r = s.getV r) ∧ (r = o.dest → ∀ i, formVl f ≤ i → (t.getV r).getLsbD i = false)

/-- R140: the source elements whose mask bit is 0 do not enter the result, whatever they are. -/
def Obligations.MaskedOffElementsDoNotEnterTheResult : Prop :=
  ∀ (f : Form) (o : Operands) (r : VecNum) (s t : State) (w : BitVec Config.maxvl), o.src = .reg r → r ≠ o.dest →
    (∀ j, j < formKl f → (o.mask = 0#3 ∨ s.kBit o.mask j = true) →
      vecElem w j = vecElem (s.getV r) j) →
    exec (f.instr o) s = .next t →
    ∃ u, exec (f.instr o) (s.setV r w) = .next u ∧ u.getV o.dest = t.getV o.dest ∧ u.pc = t.pc

/-- R208: where alignment checking is off in CR0, an instruction completes at every privilege level alike. -/
def Obligations.PrivilegeDoesNotMatter : Prop :=
  ∀ (i : Instr) (s t : State) (c : Fin 4), s.cr0Am = false → exec i s = .next t →
    exec i { s with cpl := c } = .next { t with cpl := c }

/-- R62: where the whole operand can be read, fault suppression makes no difference to the result. -/
def Obligations.SuppressionDoesNotChangeResults : Prop :=
  ∀ (i : Instr) (s t : State), s.part.faultSuppression = false → exec i s = .next t →
    exec i { s with part := { s.part with faultSuppression := true } } =
      .next { t with part := { s.part with faultSuppression := true } }

/-! ## Memory operands -/

/-- R58, R99, R22: in 64-bit mode byte `i` of a memory operand lies at the sum of base, index and displacement, modulo
2^64 or under 67H modulo 2^32, plus the base of FS or GS where that is the segment. That the bytes after the first wrap
modulo 2^64 too is the model's choice (log entry 14). -/
def Obligations.LinearAddressIn64BitMode : Prop :=
  ∀ (f : Form) (o : Operands) (bcast : Bool) (a : Addr) (s : State) (i : Nat), s.mode = .mode64 →
    ((operandByte f o bcast a s i).toNat : ℤ) =
      ((match operandSegment o a with | .fs => s.segBase.fs.toNat | .gs => s.segBase.gs.toNat | _ => 0 : ℕ) +
        addressInt f o bcast a s % (if o.hasAddressSize = true then 2 ^ 32 else 2 ^ 64) + i) % 2 ^ 64

/-- R58, R22: in 32-bit mode it lies at the segment's base plus that sum, modulo 2^32. For the bytes after the first that
is the model's choice (log entry 14). -/
def Obligations.LinearAddressIn32BitMode : Prop :=
  ∀ (f : Form) (o : Operands) (bcast : Bool) (a : Addr) (s : State) (i : Nat), s.mode = .mode32 →
    ((operandByte f o bcast a s i).toNat : ℤ) =
      ((match operandSegment o a with
        | .es => s.segBase.es.toNat | .cs => s.segBase.cs.toNat | .ss => s.segBase.ss.toNat
        | .ds => s.segBase.ds.toNat | .fs => s.segBase.fs.toNat | .gs => s.segBase.gs.toNat : ℕ) +
        addressInt f o bcast a s + i) % 2 ^ 32

/-- R60: the segment of a form is the last override's; without override it is SS where the base register is number 4 or
5, and DS otherwise, also without base register and for the RIP-relative form. That an override ES, CS, SS or DS selects
in 64-bit mode too is log entry 26. -/
def Obligations.SegmentSelection : Prop :=
  (∀ (o : Operands) (a : Addr) (ls : List LegacyPrefix) (h : Seg) (n : Nat),
    o.legacy = ls ++ .segment h :: List.replicate n .addressSize → operandSegment o a = h) ∧
  (∀ (o : Operands) (n : Nat), o.legacy = List.replicate n .addressSize →
    (∀ g d x, operandSegment o (.base g d x) = if g = 4#4 ∨ g = 5#4 then .ss else .ds) ∧
    (∀ sc i g d, operandSegment o (.sib sc i g d) = if g = 4#4 ∨ g = 5#4 then .ss else .ds) ∧
    (∀ sc i d b, operandSegment o (.sibNoBase sc i d b) = .ds) ∧
    (∀ d x b, operandSegment o (.direct d x b) = .ds))

/-- R59: canonical addresses are those whose upper bits are all equal. -/
def Obligations.CanonicalAddresses : Prop :=
  ∀ (s : State) (a : Word),
    (s.part.linearWidth = .bits48 →
      (s.canonical a = true ↔ a.toNat < 2 ^ 47 ∨ 2 ^ 64 - 2 ^ 47 ≤ a.toNat)) ∧
    (s.part.linearWidth = .bits57 →
      (s.canonical a = true ↔ a.toNat < 2 ^ 56 ∨ 2 ^ 64 - 2 ^ 56 ≤ a.toNat))

/-- R61, R54: under fault suppression a full-width operand of any alignment completes when the bytes of the elements
whose mask bit is 1 can be read; nothing is asked of the other elements' bytes. -/
def Obligations.OnlyUnmaskedElementsAreAccessed : Prop :=
  ∀ (f : Form) (o : Operands) (a : Addr) (s : State), o.src = .mem false a → Enterable f o s → s.mode = .mode64 →
    s.part.faultSuppression = true →
    (∀ j, j < formKl f → (o.mask = 0#3 ∨ s.kBit o.mask j = true) → ∀ i, i < 8 →
      s.canonical (operandByte f o false a s (8 * j + i)) = true ∧
      (s.ordinary? (operandByte f o false a s (8 * j + i))).isSome = true) →
    ∃ t, exec (f.instr o) s = .next t

/-- R52, R54: with alignment checking off a broadcast operand of any alignment completes when its eight bytes can be
read, whatever lies beside them. -/
def Obligations.BroadcastAccessesEightBytes : Prop :=
  ∀ (f : Form) (o : Operands) (a : Addr) (s : State), o.src = .mem true a → Enterable f o s → s.mode = .mode64 →
    s.acEnabled = false →
    (∀ i, i < 8 → s.canonical (operandByte f o true a s i) = true ∧
      (s.ordinary? (operandByte f o true a s i)).isSome = true) →
    ∃ t, exec (f.instr o) s = .next t

/-- R61: under fault suppression with every mask bit 0 a memory form completes whatever memory holds. That this includes
a misaligned m64bcst under alignment checking, whose refusal by R55 needs an access, is the model's choice (log entry
17). -/
def Obligations.AllMaskedMemoryFormCompletes : Prop :=
  ∀ (f : Form) (o : Operands) (bcast : Bool) (a : Addr) (s : State), o.src = .mem bcast a → Enterable f o s →
    s.part.faultSuppression = true → o.mask ≠ 0#3 → (∀ j, j < formKl f → s.kBit o.mask j = false) →
    ∃ t, exec (f.instr o) s = .next t ∧
      ∀ j, j < formKl f →
        vecElem (t.getV o.dest) j = if o.zeroing = true then 0#64 else vecElem (s.getV o.dest) j

/-! ## Faults and refusals -/

/-- R193 (f) to (h), R194, R209, R201: in a mode or under a state that does not enable the form, #UD is raised, vector 6
without error code (R196), also where CR0.TS is 1. -/
def Obligations.DisabledStateRaisesInvalidOpcode : Prop :=
  ∀ (f : Form) (o : Operands) (s : State), s.textInRange o.length = true → o.length ≤ 15 →
    (s.mode = .real ∨ s.mode = .virtual8086 ∨ s.cr4Osxsave = false ∨ s.xcr0.extractLsb' 5 3 ≠ 7#3 ∨
      s.xcr0.extractLsb' 1 2 ≠ 3#2 ∨ s.part.avx512f = false ∨ (f ≠ .zmm ∧ s.part.avx512vl = false)) →
    exec (f.instr o) s = .fault (.invalidOpcode s.pc) ∧ (Fault.invalidOpcode s.pc).vector = 6 ∧
      (Fault.invalidOpcode s.pc).errorCode = none

/-- R201: an over-long instruction that also meets a #UD condition is refused: a condition of the state (R193 (f) to (h)),
or one of its own bits or the bytes before it (R193 (a) to (e)). For the latter the length is R100's (log entry 22), V'n = 0
counts in every mode (log entry 28), a REX byte in every place (log entry 31), and real-address and virtual-8086 mode read
the bytes as 32-bit mode does (log entry 19). -/
def Obligations.OverlongUndefinedIsRefused : Prop :=
  (∀ (f : Form) (o : Operands) (s : State), s.textInRange o.length = true → 15 < o.length →
    (s.modeValid = false ∨ s.stateEnabled = false ∨ s.part.avx512f = false ∨ (f ≠ .zmm ∧ s.part.avx512vl = false)) →
    exec (f.instr o) s = .refused .overlongUndefined) ∧
  (∀ (s : State) (ls : List Byte) (p0 p1 p2 modrm : Byte) (tail : List Byte),
    s.text = ls ++ 0x62#8 :: p0 :: p1 :: p2 :: 0x4E#8 :: modrm :: tail →
    (∀ x ∈ ls, precedingByte s.mode x = true) → (s.mode = .mode64 ∨ p0.extractLsb' 6 2 = 3#2) →
    p0.extractLsb' 0 4 = 2#4 → p1.getLsbD 7 = true → p1.extractLsb' 0 3 = 5#3 →
    (p1.extractLsb' 3 4 ≠ 15#4 ∨ p2.getLsbD 3 = false ∨ p2.extractLsb' 5 2 = 3#2 ∨
      (modrm.extractLsb' 6 2 = 3#2 ∧ p2.getLsbD 4 = true) ∨ ∃ x ∈ ls, forbiddenByte s.mode x = true) →
    15 < ilen ls.length modrm (tail.headD 0#8) →
    ilen ls.length modrm (tail.headD 0#8) ≤ ls.length + 6 + tail.length →
    s.textInRange (ilen ls.length modrm (tail.headD 0#8)) = true →
    step s = .refused .overlongUndefined)

/-- R81, R198: an instruction longer than 15 bytes that meets no #UD condition and is not refused raises #GP(0), also
where CR0.TS is 1 (R201). -/
def Obligations.OverlongRaisesGeneralProtection : Prop :=
  ∀ (f : Form) (o : Operands) (s : State), s.textInRange o.length = true → 15 < o.length →
    (s.mode = .mode64 ∨ (s.mode = .mode32 ∧ o.fits32 = true)) → s.stateEnabled = true → s.part.avx512f = true →
    (f = .zmm ∨ s.part.avx512vl = true) → (o.zeroing = true → o.mask ≠ 0#3) →
    exec (f.instr o) s = .fault (.instructionTooLong s.pc) ∧ (Fault.instructionTooLong s.pc).vector = 13 ∧
      (Fault.instructionTooLong s.pc).errorCode = some 0#6

/-- R195: with CR0.TS = 1 and everything else in order, #NM is raised, before any memory fault (R201). -/
def Obligations.TaskSwitchedRaisesDeviceNotAvailable : Prop :=
  ∀ (f : Form) (o : Operands) (s : State), Enterable f o { s with cr0Ts := false } → s.cr0Ts = true →
    exec (f.instr o) s = .fault (.deviceNotAvailable s.pc) ∧ (Fault.deviceNotAvailable s.pc).vector = 7 ∧
      (Fault.deviceNotAvailable s.pc).errorCode = none

/-- R105, R88, R99: the encodings the spec refuses are refused by name, in the order of the model (log entry 25). -/
def Obligations.RefusedEncodings : Prop :=
  ∀ (f : Form) (o : Operands) (s : State), s.textInRange o.length = true → undefinedIn f s = false →
    (o.zeroing = true → o.mask = 0#3 → exec (f.instr o) s = .refused .zeroingWithoutMask) ∧
    ((o.zeroing = true → o.mask ≠ 0#3) → s.mode = .mode32 → o.lowRegisters = false →
      exec (f.instr o) s = .refused .registerNotIn32BitMode) ∧
    ((o.zeroing = true → o.mask ≠ 0#3) → s.mode = .mode32 → o.lowRegisters = true → o.hasAddressSize = true →
      exec (f.instr o) s = .refused .addressSize16)

/-- R24: an instruction that reaches past the last address, or in 64-bit mode has a byte that is not canonical, is
refused. Outside 64-bit mode the limit of CS is that of a flat segment, the model's choice (log entry 12). -/
def Obligations.PcOutOfRangeIsRefused : Prop :=
  ∀ (i : Instr) (s : State),
    (s.mode = .mode64 → (2 ^ 64 ≤ s.pc.toNat + i.operands.length ∨
        ∃ k, k < i.operands.length ∧ s.canonical (s.pc + Word.ofNat k) = false) →
      exec i s = .refused .pcOutOfRange) ∧
    (s.mode ≠ .mode64 → 2 ^ 32 ≤ s.pc.toNat + i.operands.length → exec i s = .refused .pcOutOfRange)

/-- R59, R197, R198, R196: an accessed byte that is not canonical raises #SS(0), vector 12, when the segment is SS and
#GP(0), vector 13, otherwise, in 64-bit mode. -/
def Obligations.NonCanonicalOperandFaults : Prop :=
  ∀ (f : Form) (o : Operands) (bcast : Bool) (a : Addr) (s : State) (i : Nat), o.src = .mem bcast a →
    Enterable f o s → s.mode = .mode64 → i ∈ accessedBytes f o bcast s →
    s.canonical (operandByte f o bcast a s i) = false →
    ∃ r, exec (f.instr o) s = .fault r ∧
      r = .memFault (if operandSegment o a = .ss then .stackSegment else .generalProtection) s.pc ∧
      r.vector = (if operandSegment o a = .ss then 12 else 13) ∧ r.errorCode = some 0#6

/-- The model's choice for the limit of a flat 4 GiB segment in 32-bit mode (log entry 13; D33): an accessed byte past
it raises #SS(0) or #GP(0), with the vectors of R196. -/
def Obligations.OperandPastFlatLimitFaults : Prop :=
  ∀ (f : Form) (o : Operands) (bcast : Bool) (a : Addr) (s : State) (i : Nat), o.src = .mem bcast a →
    Enterable f o s → s.mode = .mode32 → i ∈ accessedBytes f o bcast s →
    2 ^ 32 ≤ (effectiveAddress f o bcast a s).toNat + i →
    ∃ r, exec (f.instr o) s = .fault r ∧
      r = .memFault (if operandSegment o a = .ss then .stackSegment else .generalProtection) s.pc ∧
      r.vector = (if operandSegment o a = .ss then 12 else 13) ∧ r.errorCode = some 0#6

/-- R199, R64, R196: where every accessed byte is inside its segment, the lowest address that the memory does not admit is
reported as #PF, vector 14, with an error code whose W/R and I/D bits are 0 and whose U/S bit is 1 exactly when CPL is 3.
The code's other bits are free, and that the lowest address is reported, also where the operand wraps past the top of the
address space, is the choice of 93_implementation_defined.md U21 and the model's (log entry 16). -/
def Obligations.UnadmittedOperandFaults : Prop :=
  ∀ (f : Form) (o : Operands) (bcast : Bool) (a : Addr) (s : State) (i : Nat), o.src = .mem bcast a →
    Enterable f o s → (∀ k ∈ accessedBytes f o bcast s, segmentViolation f o bcast a s k = false) →
    i ∈ accessedBytes f o bcast s → s.present (operandByte f o bcast a s i) = false →
    (∀ k ∈ accessedBytes f o bcast s, s.present (operandByte f o bcast a s k) = false →
      (operandByte f o bcast a s i).toNat ≤ (operandByte f o bcast a s k).toNat) →
    ∃ r code, exec (f.instr o) s = .fault r ∧ r = .memFault (.notAdmitted (operandByte f o bcast a s i) code) s.pc ∧
      r.vector = 14 ∧ r.errorCode = some code ∧
      code.getLsbD 1 = false ∧ code.getLsbD 4 = false ∧ (code.getLsbD 2 = true ↔ s.cpl = 3)

/-- R55, R200: a misaligned m64bcst access with alignment checking on, otherwise readable, is refused. Its place
before the device refusal is the model's choice (log entry 17). -/
def Obligations.MisalignedBroadcastUnderAlignmentCheckIsRefused : Prop :=
  ∀ (f : Form) (o : Operands) (a : Addr) (s : State), o.src = .mem true a → Enterable f o s → s.acEnabled = true →
    accessedBytes f o true s ≠ [] →
    (∀ i ∈ accessedBytes f o true s, segmentViolation f o true a s i = false ∧
      s.present (operandByte f o true a s i) = true) →
    (operandByte f o true a s 0).toNat % 8 ≠ 0 →
    exec (f.instr o) s = .refused .alignmentCheckOpen

/-- R56: an accessed byte that is no ordinary memory, the operand otherwise readable, is refused. -/
def Obligations.DeviceOperandIsRefused : Prop :=
  ∀ (f : Form) (o : Operands) (bcast : Bool) (a : Addr) (s : State) (i : Nat), o.src = .mem bcast a →
    Enterable f o s → s.acEnabled = false →
    (∀ k ∈ accessedBytes f o bcast s, segmentViolation f o bcast a s k = false ∧
      s.present (operandByte f o bcast a s k) = true) →
    i ∈ accessedBytes f o bcast s → s.isDevice (operandByte f o bcast a s i) = true →
    exec (f.instr o) s = .refused .deviceMemory

/-- R205, R193: every fault a step raises saves the address of the instruction it started at. -/
def Obligations.FaultsSaveTheInstructionAddress : Prop :=
  ∀ (s : State) (r : Fault), step s = .fault r → r.savedPc = s.pc

/-! ## The whole machine -/

/-- The invariant holds after reset. -/
def Obligations.ResetMeetsInvariant : Prop := Inv State.reset

/-- Every step keeps the invariant: memory in canonical form, reserved MXCSR bits zero, opmask registers of at
least eight bits, EIP zero-extended. -/
def Obligations.StepKeepsInvariant : Prop :=
  ∀ (s t : State), Inv s → step s = .next t → Inv t

/-- R20, R23, R24, R233: a step that completes writes one vector register and moves `pc` forward by 6 to 15 without
wrapping, and does nothing else. -/
def Obligations.StepWritesOneVectorRegisterAndPc : Prop :=
  ∀ (s t : State), step s = .next t →
    ∃ (d : VecNum) (n : Nat), 6 ≤ n ∧ n ≤ 15 ∧ t.pc.toNat = s.pc.toNat + n ∧ SameExcept d s t

/-- R193 to R195, R209: a step completes only in 64-bit or 32-bit mode with the state enabled, AVX512F and CR0.TS
clear. -/
def Obligations.StepsCompleteOnlyWhenEnabled : Prop :=
  ∀ (s t : State), step s = .next t →
    (s.mode = .mode64 ∨ s.mode = .mode32) ∧ s.cr4Osxsave = true ∧ s.xcr0.extractLsb' 5 3 = 7#3 ∧
      s.xcr0.extractLsb' 1 2 = 3#2 ∧ s.part.avx512f = true ∧ s.cr0Ts = false

/-- R38: the power-up values the spec states. -/
def Obligations.ResetValues : Prop :=
  State.reset.getX 0#4 = 0#64 ∧ (∀ r : GprNum, r ≠ 2#4 → State.reset.getX r = 0#64) ∧
    State.reset.pc = 0xFFF0#64 ∧ State.reset.segBase.cs = 0xFFFF0000#64 ∧ State.reset.rflags = 2#64 ∧
    State.reset.mxcsr = 0x1F80#32 ∧ (∀ r : VecNum, State.reset.getV r = 0) ∧ (∀ (r : MaskNum) (j : Nat), State.reset.kBit r j = false) ∧
    State.reset.cr0Ts = false ∧ State.reset.cr0Am = false ∧ State.reset.cr4Osxsave = false ∧ State.reset.xcr0 = 1#64 ∧
    State.reset.mode = .real

/-- R230: straight after reset, whatever memory holds, no step completes, and VRSQRT14PD raises #UD. -/
def Obligations.AfterResetTheInstructionIsUndefined : Prop :=
  ∀ (m : Memory) (ds : List Region),
    (∀ t, step { State.reset with mem := m, devices := ds } ≠ .next t) ∧
    (∀ i, decode .real (State.text { State.reset with mem := m, devices := ds }) = .instr i →
      i.operands.length ≤ 15 →
      step { State.reset with mem := m, devices := ds } = .fault (.invalidOpcode 0xFFF0#64))
end

