-- ==== Sys2Proof/Laws/Memory.lean ====
section
/-!
SUPPORT. The laws of memory: a read after a write, a write elsewhere, and the canonical form, which every operation
that makes a memory keeps.
-/

namespace Sys2Proof.Machine

/-- Reading after an insertion. -/
theorem Memory.byte?_insert (a : Nat) (b : Byte) (m : Memory) (a' : Nat) :
    (Memory.insert a b m).byte? a' = if a' = a then some b else m.byte? a' := by
  induction m with
  | nil =>
    by_cases h : a' = a
    · simp [Memory.insert, Memory.byte?, h]
    · simp [Memory.insert, Memory.byte?, h, Ne.symm h]
  | cons c m ih =>
    simp only [Memory.insert]
    have hrec : Memory.byte? (c :: m) a' = if c.1 = a' then some c.2 else Memory.byte? m a' := rfl
    have hnew : ∀ l, Memory.byte? ((a, b) :: l) a' = if a = a' then some b else Memory.byte? l a' := fun _ => rfl
    by_cases h : a' = a
    · rw [if_pos h]
      split_ifs with h1 h2
      · rw [hnew, if_pos h.symm]
      · rw [hnew, if_pos h.symm]
      · rw [Memory.byte?, if_neg (by omega), ih, if_pos h]
    · rw [if_neg h]
      split_ifs with h1 h2
      · rw [hnew, if_neg (Ne.symm h)]
      · rw [hnew, if_neg (Ne.symm h), hrec, if_neg (by omega)]
      · rw [hrec, Memory.byte?, ih, if_neg h]

/-- A byte stored is the byte read, and every other byte is as before (20_memory.md R53, R63). -/
theorem Memory.byte?_store (m : Memory) (a : Word) (b : Byte) (a' : Nat) :
    (m.store a b).byte? a' = if a' = a.toNat then some b else m.byte? a' := Memory.byte?_insert _ _ _ _

/-- What an insertion lists. -/
theorem Memory.mem_insert {a : Nat} {b : Byte} {m : Memory} {c : Host.Cell} (h : c ∈ Memory.insert a b m) :
    c = (a, b) ∨ c ∈ m := by
  induction m with
  | nil => simpa [Memory.insert] using h
  | cons d m ih =>
    simp only [Memory.insert] at h
    split_ifs at h <;> simp only [List.mem_cons] at h ⊢ <;> tauto

/-- An insertion keeps the addresses strictly rising. -/
theorem Memory.insert_pairwise (a : Nat) (b : Byte) {m : Memory} (h : m.Pairwise fun c d => c.1 < d.1) :
    (Memory.insert a b m).Pairwise fun c d => c.1 < d.1 := by
  induction m with
  | nil => simp [Memory.insert]
  | cons c m ih =>
    obtain ⟨hc, hm⟩ := List.pairwise_cons.1 h
    simp only [Memory.insert]
    split_ifs with h1 h2
    · refine List.pairwise_cons.2 ⟨fun d hd => ?_, h⟩
      rcases List.mem_cons.1 hd with rfl | hd
      · exact h1
      · exact h1.trans (hc d hd)
    · exact List.pairwise_cons.2 ⟨fun d hd => h2 ▸ hc d hd, hm⟩
    · refine List.pairwise_cons.2 ⟨fun d hd => ?_, ih hm⟩
      rcases Memory.mem_insert hd with rfl | hd
      · simp only; omega
      · exact hc d hd

/-- A store keeps the canonical form. -/
theorem Memory.store_wf {m : Memory} (a : Word) (b : Byte) (h : m.wf) : (m.store a b).wf :=
  ⟨Memory.insert_pairwise _ _ h.1, fun c hc => by
    rcases Memory.mem_insert hc with rfl | hc
    · exact a.isLt
    · exact h.2 c hc⟩

/-- Storing a string keeps the canonical form. -/
theorem Memory.storeAll_wf {m : Memory} (addr : Nat → Word) (bytes : List Byte) (h : m.wf) :
    (m.storeAll addr bytes).wf := by
  unfold Memory.storeAll
  induction bytes.zipIdx generalizing m with
  | nil => exact h
  | cons c cs ih => exact ih (Memory.store_wf _ _ h)

/-- No address is reported exactly when every one is admitted. -/
theorem State.lowestUnadmitted_eq_none_iff {s : State} {l : List Word} :
    s.lowestUnadmitted l = none ↔ ∀ a ∈ l, s.present a = true := by
  induction l with
  | nil => simp [State.lowestUnadmitted]
  | cons a l ih =>
    rw [State.lowestUnadmitted]
    split_ifs with h
    · simp [ih, h]
    · cases hr : s.lowestUnadmitted l <;> simp [h]

/-- The address reported is one of the list, is not admitted, and no such address is lower. -/
theorem State.lowestUnadmitted_spec {s : State} {l : List Word} {p : Word} (h : s.lowestUnadmitted l = some p) :
    p ∈ l ∧ s.present p = false ∧ ∀ a ∈ l, s.present a = false → p.toNat ≤ a.toNat := by
  induction l generalizing p with
  | nil => simp [State.lowestUnadmitted] at h
  | cons a l ih =>
    rw [State.lowestUnadmitted] at h
    split_ifs at h with ha
    · obtain ⟨h1, h2, h3⟩ := ih h
      refine ⟨List.mem_cons_of_mem _ h1, h2, fun b hb hn => ?_⟩
      rcases List.mem_cons.1 hb with rfl | hb
      · simp [ha] at hn
      · exact h3 b hb hn
    · have hf : s.present a = false := by simpa using ha
      cases hr : s.lowestUnadmitted l with
      | none =>
        rw [hr] at h
        obtain rfl : a = p := by simpa using h
        refine ⟨List.mem_cons_self, hf, fun b hb hn => ?_⟩
        rcases List.mem_cons.1 hb with rfl | hb
        · exact le_rfl
        · simp [State.lowestUnadmitted_eq_none_iff.1 hr b hb] at hn
      | some q =>
        rw [hr] at h
        obtain ⟨h1, h2, h3⟩ := ih hr
        simp only [Option.some.injEq] at h
        split_ifs at h with hle <;> subst h
        · refine ⟨List.mem_cons_self, hf, fun b hb hn => ?_⟩
          rcases List.mem_cons.1 hb with rfl | hb
          · exact le_rfl
          · exact hle.trans (h3 b hb hn)
        · refine ⟨List.mem_cons_of_mem _ h1, h2, fun b hb hn => ?_⟩
          rcases List.mem_cons.1 hb with rfl | hb
          · omega
          · exact h3 b hb hn

/-- The reset memory is canonical. -/
theorem State.reset_mem_wf : State.reset.mem.wf := by decide

@[simp] theorem State.enable_mem (s : State) : s.enable.mem = s.mem := rfl

/-- Placing text keeps the canonical form. -/
theorem State.placeText_mem_wf {s : State} (bytes : List Byte) (h : s.mem.wf) : (s.placeText bytes).mem.wf :=
  Memory.storeAll_wf _ _ h

/-- Admitting an operand keeps the canonical form. -/
theorem State.admitOperand_mem_wf {s : State} (i : Instr) (h : s.mem.wf) : (s.admitOperand i).mem.wf := by
  unfold State.admitOperand
  split
  · exact h
  · rename_i bcast a _
    simp only
    generalize List.range (disp8Factor i.form bcast) = ks
    generalize s.mem = m at h ⊢
    induction ks generalizing m with
    | nil => exact h
    | cons k ks ih =>
      refine ih _ ?_
      dsimp only
      split
      · exact h
      · exact Memory.store_wf _ _ h

/-- A launch keeps the canonical form. -/
theorem State.launchWord_mem_wf {s : State} (nbits w : Nat) (h : s.mem.wf) : (s.launchWord nbits w).mem.wf := by
  unfold State.launchWord
  have h' := State.placeText_mem_wf (s := s.enable) (tableBytes nbits w) h
  dsimp only
  split
  · exact State.admitOperand_mem_wf _ h'
  · exact h'

end Sys2Proof.Machine
end

