-- ==== Sys2Proof/Laws/State.lean ====
section
/-!
SUPPORT. One lemma for each field under each update of the state a step makes, and reading a register after a write.
-/

namespace Sys2Proof.Machine

@[simp] theorem State.setV_x (s : State) (r : VecNum) (w) : (s.setV r w).x = s.x := rfl
@[simp] theorem State.setV_opmask (s : State) (r : VecNum) (w) : (s.setV r w).opmask = s.opmask := rfl
@[simp] theorem State.setV_pc (s : State) (r : VecNum) (w) : (s.setV r w).pc = s.pc := rfl
@[simp] theorem State.setV_rflags (s : State) (r : VecNum) (w) : (s.setV r w).rflags = s.rflags := rfl
@[simp] theorem State.setV_mxcsr (s : State) (r : VecNum) (w) : (s.setV r w).mxcsr = s.mxcsr := rfl
@[simp] theorem State.setV_mode (s : State) (r : VecNum) (w) : (s.setV r w).mode = s.mode := rfl
@[simp] theorem State.setV_cpl (s : State) (r : VecNum) (w) : (s.setV r w).cpl = s.cpl := rfl
@[simp] theorem State.setV_cr0Ts (s : State) (r : VecNum) (w) : (s.setV r w).cr0Ts = s.cr0Ts := rfl
@[simp] theorem State.setV_cr0Am (s : State) (r : VecNum) (w) : (s.setV r w).cr0Am = s.cr0Am := rfl
@[simp] theorem State.setV_cr4Osxsave (s : State) (r : VecNum) (w) : (s.setV r w).cr4Osxsave = s.cr4Osxsave := rfl
@[simp] theorem State.setV_cr4Osxmmexcpt (s : State) (r : VecNum) (w) : (s.setV r w).cr4Osxmmexcpt = s.cr4Osxmmexcpt := rfl
@[simp] theorem State.setV_xcr0 (s : State) (r : VecNum) (w) : (s.setV r w).xcr0 = s.xcr0 := rfl
@[simp] theorem State.setV_cr2 (s : State) (r : VecNum) (w) : (s.setV r w).cr2 = s.cr2 := rfl
@[simp] theorem State.setV_segBase (s : State) (r : VecNum) (w) : (s.setV r w).segBase = s.segBase := rfl
@[simp] theorem State.setV_mem (s : State) (r : VecNum) (w) : (s.setV r w).mem = s.mem := rfl
@[simp] theorem State.setV_devices (s : State) (r : VecNum) (w) : (s.setV r w).devices = s.devices := rfl
@[simp] theorem State.setV_part (s : State) (r : VecNum) (w) : (s.setV r w).part = s.part := rfl

@[simp] theorem State.advance_x (s : State) (n : Nat) : (s.advance n).x = s.x := rfl
@[simp] theorem State.advance_v (s : State) (n : Nat) : (s.advance n).v = s.v := rfl
@[simp] theorem State.advance_opmask (s : State) (n : Nat) : (s.advance n).opmask = s.opmask := rfl
@[simp] theorem State.advance_rflags (s : State) (n : Nat) : (s.advance n).rflags = s.rflags := rfl
@[simp] theorem State.advance_mxcsr (s : State) (n : Nat) : (s.advance n).mxcsr = s.mxcsr := rfl
@[simp] theorem State.advance_mode (s : State) (n : Nat) : (s.advance n).mode = s.mode := rfl
@[simp] theorem State.advance_cpl (s : State) (n : Nat) : (s.advance n).cpl = s.cpl := rfl
@[simp] theorem State.advance_cr0Ts (s : State) (n : Nat) : (s.advance n).cr0Ts = s.cr0Ts := rfl
@[simp] theorem State.advance_cr0Am (s : State) (n : Nat) : (s.advance n).cr0Am = s.cr0Am := rfl
@[simp] theorem State.advance_cr4Osxsave (s : State) (n : Nat) : (s.advance n).cr4Osxsave = s.cr4Osxsave := rfl
@[simp] theorem State.advance_cr4Osxmmexcpt (s : State) (n : Nat) : (s.advance n).cr4Osxmmexcpt = s.cr4Osxmmexcpt := rfl
@[simp] theorem State.advance_xcr0 (s : State) (n : Nat) : (s.advance n).xcr0 = s.xcr0 := rfl
@[simp] theorem State.advance_cr2 (s : State) (n : Nat) : (s.advance n).cr2 = s.cr2 := rfl
@[simp] theorem State.advance_segBase (s : State) (n : Nat) : (s.advance n).segBase = s.segBase := rfl
@[simp] theorem State.advance_mem (s : State) (n : Nat) : (s.advance n).mem = s.mem := rfl
@[simp] theorem State.advance_devices (s : State) (n : Nat) : (s.advance n).devices = s.devices := rfl
@[simp] theorem State.advance_part (s : State) (n : Nat) : (s.advance n).part = s.part := rfl
@[simp] theorem State.advance_pc (s : State) (n : Nat) : (s.advance n).pc = s.pc + Word.ofNat n := rfl

@[simp] theorem State.advance_getV (s : State) (n : Nat) (r : VecNum) : (s.advance n).getV r = s.getV r := rfl
@[simp] theorem State.advance_getX (s : State) (n : Nat) (r : GprNum) : (s.advance n).getX r = s.getX r := rfl
@[simp] theorem State.advance_kBit (s : State) (n : Nat) (r : MaskNum) : (s.advance n).kBit r = s.kBit r := rfl
@[simp] theorem State.setV_getX (s : State) (d : VecNum) (w) (r : GprNum) : (s.setV d w).getX r = s.getX r := rfl
@[simp] theorem State.setV_kBit (s : State) (d : VecNum) (w) (r : MaskNum) : (s.setV d w).kBit r = s.kBit r := rfl

/-- A vector register reads as the value last written to it. -/
@[simp] theorem State.getV_setV (s : State) (r : VecNum) (w) : (s.setV r w).getV r = w := by
  simp [State.getV, State.setV]

/-- A write to one vector register leaves every other as it was. -/
theorem State.getV_setV_ne (s : State) {d r : VecNum} (w) (h : r ≠ d) : (s.setV d w).getV r = s.getV r := by
  have : d.toNat ≠ r.toNat := fun e => h (BitVec.eq_of_toNat_eq e.symm)
  simp [State.getV, State.setV, this]

end Sys2Proof.Machine
end

