-- ==== Sys2Proof/Laws/Vec.lean ====
section
/-!
SUPPORT. A vector register and its elements (spec/10_state.md R32): packing and reading back.
-/

namespace Sys2Proof.Machine

/-- Element `j` of the packed register is `e j`. -/
theorem vecElem_vecOf (e : Nat → Elem) {j : Nat} (h : j < 8) : vecElem (vecOf e) j = e j := by
  have hd : ∀ {p : Prop} [Decidable p], p → decide p = true := fun h => decide_eq_true h
  have hn : ∀ {p : Prop} [Decidable p], ¬p → decide p = false := fun h => decide_eq_false h
  unfold vecElem vecOf
  interval_cases j <;> ext i hi <;>
    simp (disch := omega) [BitVec.getLsbD_of_ge, hd, hn, hi, Config.maxvl]

/-- Elements at and above 8 do not exist. -/
theorem vecElem_of_ge (w : BitVec Config.maxvl) {j : Nat} (h : 8 ≤ j) : vecElem w j = 0#64 := by
  unfold vecElem
  ext i hi
  simp only [BitVec.getElem_extractLsb', BitVec.getElem_zero]
  exact BitVec.getLsbD_of_ge _ _ (by simp only [Config.maxvl]; omega)

/-- A register is determined by its eight elements. -/
theorem vec_ext {a b : BitVec Config.maxvl} (h : ∀ j < 8, vecElem a j = vecElem b j) : a = b := by
  apply BitVec.eq_of_getLsbD_eq
  intro i hi
  have hj : i / 64 < 8 := by simp only [Config.maxvl] at hi; omega
  have := congrArg (fun e => e.getLsbD (i % 64)) (h (i / 64) hj)
  have hm : i % 64 < 64 := Nat.mod_lt _ (by omega)
  have hi' : 64 * (i / 64) + i % 64 = i := Nat.div_add_mod i 64
  simpa [vecElem, hm, hi'] using this

end Sys2Proof.Machine
end

