-- ==== Sys2Proof/Laws/Exec.lean ====
section
/-!
SUPPORT. What the shared operations of VRSQRT14PD can do, each said once: when entry and the memory operand give no
stop, the cases of `exec` and of `step`, and what a completed instruction leaves.
-/

namespace Sys2Proof.Machine

/-- Entry gives no stop exactly under the conditions of the spec. -/
theorem entryStop_eq_none_iff {f : Form} {o : Operands} {s : State} : entryStop f o s = none ↔ Enterable f o s := by
  constructor
  · intro h
    unfold entryStop at h
    split_ifs at h with h1 h2 h3 h4 h5 h6 h7
    simp only [undefinedIn, State.modeValid, Operands.maskingWf, Bool.not_eq_true', Bool.or_eq_true, not_or,
      Bool.and_eq_true, beq_iff_eq, bne_iff_ne, Bool.not_eq_false] at h1 h2 h3 h4 h5
    obtain ⟨⟨⟨hm, he⟩, hf⟩, hv⟩ := h2
    refine ⟨?_, he, hf, ?_, by simpa using h7, h1, by simpa [maxLength] using h6, ?_, ?_⟩
    · simpa [or_comm] using hm
    · by_cases hz : f = .zmm
      · exact Or.inl hz
      · right
        simpa [hz] using hv
    · intro hz hm0
      simp [hz, hm0] at h3
    · intro hm32
      simp only [hm32, true_and, Bool.not_eq_false] at h4 h5
      simp [Operands.fits32, h4, h5]
  · intro h
    obtain ⟨hm, he, hf, hv, ht, hx, hl, hk, h32⟩ := h
    have hu : undefinedIn f s = false := by
      simp only [undefinedIn, State.modeValid, he, hf, Bool.not_true, Bool.or_false]
      rcases hm with hm | hm <;> rcases hv with hv | hv <;> simp [hm, hv]
    have hw : o.maskingWf = true := by
      simp only [Operands.maskingWf, Bool.not_eq_true', Bool.and_eq_false_iff, beq_eq_false_iff_ne]
      by_cases hz : o.zeroing = true
      · exact Or.inr (hk hz)
      · exact Or.inl (by simpa using hz)
    have h4 : (s.mode == .mode32 && !o.lowRegisters) = false := by
      by_cases hm32 : s.mode = .mode32
      · have := h32 hm32
        simp only [Operands.fits32, Bool.and_eq_true] at this
        simp [this.1]
      · simp [hm32]
    have h5 : (s.mode == .mode32 && o.hasAddressSize) = false := by
      by_cases hm32 : s.mode = .mode32
      · have := h32 hm32
        simp only [Operands.fits32, Bool.and_eq_true, Bool.not_eq_true'] at this
        simp [this.2]
      · simp [hm32]
    simp [entryStop, hx, hu, hw, h4, h5, ht, Nat.not_lt.2 hl]

/-- A memory operand gives no stop exactly when it can be read. -/
theorem memoryStop_eq_none_iff {f : Form} {o : Operands} {bcast : Bool} {a : Addr} {s : State} :
    memoryStop f o bcast a s = none ↔ Readable f o bcast a s := by
  constructor
  · intro h
    unfold memoryStop at h
    dsimp only at h
    by_cases h1 : (accessedBytes f o bcast s).any (segmentViolation f o bcast a s) = true
    · simp [h1] at h
    rw [if_neg h1] at h
    split at h
    · exact absurd h (by simp)
    · rename_i hp
      rw [State.lowestUnadmitted_eq_none_iff, List.forall_mem_map] at hp
      by_cases h2 : (bcast && s.acEnabled && !(accessedBytes f o bcast s).isEmpty &&
        (operandByte f o bcast a s 0).extractLsb' 0 3 != 0#3) = true
      · simp only [if_pos h2, reduceCtorEq] at h
      rw [if_neg h2] at h
      by_cases h3 : (accessedBytes f o bcast s).any (fun i => s.isDevice (operandByte f o bcast a s i)) = true
      · simp only [if_pos h3, reduceCtorEq] at h
      have hord : ∀ i ∈ accessedBytes f o bcast s, s.isDevice (operandByte f o bcast a s i) = false := by
        intro i hi
        by_contra hd
        exact h3 (List.any_eq_true.2 ⟨i, hi, by simpa using hd⟩)
      refine ⟨?_, ?_, hord, ?_⟩
      · intro i hi
        by_contra hv
        exact h1 (List.any_eq_true.2 ⟨i, hi, by simpa using hv⟩)
      · intro i hi
        have := hp i hi
        simpa [State.present, hord i hi] using this
      · intro hb hac hne
        subst hb
        by_contra hal
        apply h2
        simp [hac] at hne ⊢
        exact ⟨hne, hal⟩
  · intro h
    obtain ⟨hseg, hadm, hord, hal⟩ := h
    have h1 : (accessedBytes f o bcast s).any (segmentViolation f o bcast a s) = false := by
      rw [List.any_eq_false]
      exact fun i hi => by simp [hseg i hi]
    have h2 : s.lowestUnadmitted ((accessedBytes f o bcast s).map (operandByte f o bcast a s)) = none :=
      State.lowestUnadmitted_eq_none_iff.2 (List.forall_mem_map.2 fun i hi => by simp [State.present, hadm i hi])
    have h3 : (accessedBytes f o bcast s).any (fun i => s.isDevice (operandByte f o bcast a s i)) = false := by
      rw [List.any_eq_false]
      exact fun i hi => by simp [hord i hi]
    have h4 : (bcast && s.acEnabled && !(accessedBytes f o bcast s).isEmpty &&
        (operandByte f o bcast a s 0).extractLsb' 0 3 != 0#3) = false := by
      by_contra hc
      simp only [Bool.not_eq_false, Bool.and_eq_true, Bool.not_eq_true', bne_iff_ne] at hc
      exact hc.2 (hal hc.1.1.1 hc.1.1.2 (by simpa using hc.1.2))
    simp only [memoryStop, h1, h2, h3, h4, Bool.false_eq_true, if_false]

/-- The source gives no stop exactly when it can be read. -/
theorem sourceStop_eq_none_iff {f : Form} {o : Operands} {s : State} :
    sourceStop f o s = none ↔ SourceReadable f o s := by
  unfold sourceStop SourceReadable
  cases o.src with
  | reg _ => simp
  | mem bcast a => exact memoryStop_eq_none_iff

/-- Every instruction is the shared meaning at its form. -/
theorem exec_eq (i : Instr) (s : State) : exec i s = execVrsqrt14pd i.form i.operands s := by cases i <;> rfl

/-- All a VRSQRT14PD can do: stop at entry, stop at its source, or complete. -/
theorem execVrsqrt14pd_cases (f : Form) (o : Operands) (s : State) :
    (∃ stop, entryStop f o s = some stop ∧ execVrsqrt14pd f o s = stop.outcome) ∨
    (Enterable f o s ∧ ∃ stop, sourceStop f o s = some stop ∧ execVrsqrt14pd f o s = stop.outcome) ∨
    (Enterable f o s ∧ SourceReadable f o s ∧ execVrsqrt14pd f o s = .next (completed f o s)) := by
  unfold execVrsqrt14pd
  cases he : entryStop f o s with
  | some stop => exact Or.inl ⟨stop, rfl, rfl⟩
  | none =>
    right
    cases hs : sourceStop f o s with
    | some stop => exact Or.inl ⟨entryStop_eq_none_iff.1 he, stop, rfl, rfl⟩
    | none => exact Or.inr ⟨entryStop_eq_none_iff.1 he, sourceStop_eq_none_iff.1 hs, rfl⟩

/-- It completes exactly when it can be entered and its source read. -/
theorem execVrsqrt14pd_eq_next_iff {f : Form} {o : Operands} {s t : State} :
    execVrsqrt14pd f o s = .next t ↔ Enterable f o s ∧ SourceReadable f o s ∧ t = completed f o s := by
  constructor
  · intro h
    rcases execVrsqrt14pd_cases f o s with ⟨stop, -, hs⟩ | ⟨-, stop, -, hs⟩ | ⟨he, hr, hs⟩
    · rw [hs] at h; cases stop <;> simp [Stop.outcome] at h
    · rw [hs] at h; cases stop <;> simp [Stop.outcome] at h
    · rw [hs] at h
      exact ⟨he, hr, by simpa using h.symm⟩
  · rintro ⟨he, hr, rfl⟩
    simp [execVrsqrt14pd, entryStop_eq_none_iff.2 he, sourceStop_eq_none_iff.2 hr]

/-- A fault at entry saves the instruction's address. -/
theorem entryStop_savedPc {f : Form} {o : Operands} {s : State} {r : Fault} (h : entryStop f o s = some (.fault r)) :
    r.savedPc = s.pc := by
  unfold entryStop at h
  split_ifs at h <;> simp only [Option.some.injEq, State.raise, Stop.fault.injEq, reduceCtorEq] at h <;> subst h <;> rfl

/-- A fault of the source saves the instruction's address. -/
theorem sourceStop_savedPc {f : Form} {o : Operands} {s : State} {r : Fault} (h : sourceStop f o s = some (.fault r)) :
    r.savedPc = s.pc := by
  unfold sourceStop memoryStop at h
  split at h
  · exact absurd h (by simp)
  · dsimp only at h
    split at h
    · simp only [Option.some.injEq, State.raise, Stop.fault.injEq] at h
      subst h; rfl
    · split at h
      · simp only [Option.some.injEq, State.raise, Stop.fault.injEq] at h
        subst h; rfl
      · split_ifs at h <;> simp at h

/-- Element `j` of the destination after completion. -/
@[simp] theorem completed_elem (f : Form) (o : Operands) (s : State) {j : Nat} (h : j < 8) :
    vecElem ((completed f o s).getV o.dest) j = resultElem f o s j := by
  simp [completed, vecElem_vecOf, h]

@[simp] theorem completed_pc (f : Form) (o : Operands) (s : State) :
    (completed f o s).pc = s.pc + Word.ofNat o.length := rfl

/-- Completion changes the destination and the instruction pointer only. -/
theorem completed_same (f : Form) (o : Operands) (s : State) : SameExcept o.dest s (completed f o s) where
  x := rfl
  v := fun r h => by simp [completed, State.getV_setV_ne s _ h]
  opmask := rfl
  rflags := rfl
  mxcsr := rfl
  control := ⟨rfl, rfl, rfl, rfl, rfl, rfl, rfl, rfl, rfl, rfl⟩
  bytes := fun _ => rfl
  memory := ⟨rfl, rfl⟩

/-- All a step can do. -/
theorem step_cases (s : State) :
    (∃ i, decode s.mode s.text = .instr i ∧ step s = execVrsqrt14pd i.form i.operands s) ∨
    (∃ n, decode s.mode s.text = .undefined n ∧ step s = (s.undefinedEncoding n).outcome) ∨
    (∃ r, decode s.mode s.text = .rejected r ∧ ∃ q, step s = .refused q) := by
  unfold step
  cases h : decode s.mode s.text with
  | instr i => exact Or.inl ⟨i, rfl, exec_eq i s⟩
  | undefined n => exact Or.inr (Or.inl ⟨n, rfl, rfl⟩)
  | rejected r => exact Or.inr (Or.inr ⟨r, rfl, by cases r <;> exact ⟨_, rfl⟩⟩)

end Sys2Proof.Machine
end

