-- ==== Sys2Proof/Laws/PerInstr.lean ====
section
/-!
SUPPORT. What holds of every instruction as syntax, one lemma for each constructor: the encoding of an instruction has
the length spec/30_encoding.md R100 gives it.
-/

namespace Sys2Proof.Laws

theorem tail_length (src : Src) : src.tail.length = src.nsib + src.ndisp := by
  cases src with
  | reg r => rfl
  | mem bc a =>
    cases a with
    | base g d x => cases d <;> rfl
    | sib sc i g d => cases d <;> rfl
    | sibNoBase => rfl
    | direct => rfl

theorem encode_length (i : Instr) : (encode i).length = i.operands.length := by
  simp [encode, Operands.length, Src.lengthAfter, tail_length]
  omega

/-- An instruction's encoding has as many bytes as R100 says. -/
def EncodedLength.Statement (i : Instr) : Prop := (encode i).length = i.operands.length

theorem EncodedLength.vrsqrt14pd128 (o : Operands) : EncodedLength.Statement (.vrsqrt14pd128 o) := encode_length _
theorem EncodedLength.vrsqrt14pd256 (o : Operands) : EncodedLength.Statement (.vrsqrt14pd256 o) := encode_length _
theorem EncodedLength.vrsqrt14pd512 (o : Operands) : EncodedLength.Statement (.vrsqrt14pd512 o) := encode_length _

end Sys2Proof.Laws
end

