-- ==== Sys2Proof/Laws/Rsqrt14.lean ====
section
/-!
SUPPORT. The element function and the approximation (spec/41_element_numerics.md): one lemma for each case of
RSQRT14, and that the approximation is always one the spec admits.
-/

namespace Sys2Proof.Machine

/-! ## Fields of a positive pattern -/

theorem signBit_ofFields {f g : Nat} (hf : f < 2048) (hg : g < 2 ^ 52) :
    signBit (BitVec.ofNat 64 (f * 2 ^ 52 + g)) = false := by
  have : f * 2 ^ 52 + g < 2 ^ 63 := by omega
  simp only [signBit, BitVec.getLsbD_ofNat]
  rw [Nat.testBit_lt_two_pow this]
  rfl

theorem toNat_ofFields {f g : Nat} (hf : f < 2048) (hg : g < 2 ^ 52) :
    (BitVec.ofNat 64 (f * 2 ^ 52 + g)).toNat = f * 2 ^ 52 + g := by
  rw [BitVec.toNat_ofNat]
  exact Nat.mod_eq_of_lt (by omega)

theorem expField_ofFields {f g : Nat} (hf : f < 2048) (hg : g < 2 ^ 52) :
    (expField (BitVec.ofNat 64 (f * 2 ^ 52 + g))).toNat = f := by
  rw [expField, BitVec.extractLsb'_toNat, toNat_ofFields hf hg, Nat.shiftRight_eq_div_pow, Nat.mul_comm,
    Nat.mul_add_div (by positivity), Nat.div_eq_of_lt hg, Nat.add_zero]
  exact Nat.mod_eq_of_lt hf

theorem fracField_ofFields {f g : Nat} (hf : f < 2048) (hg : g < 2 ^ 52) :
    (fracField (BitVec.ofNat 64 (f * 2 ^ 52 + g))).toNat = g := by
  rw [fracField, BitVec.extractLsb'_toNat, toNat_ofFields hf hg, Nat.shiftRight_zero, Nat.mul_comm,
    Nat.mul_add_mod, Nat.mod_eq_of_lt hg]

/-- A pattern with exponent field 1 to 2046 is a positive normal number. -/
theorem normal_ofFields {f g : Nat} (h0 : 0 < f) (hf : f < 2047) (hg : g < 2 ^ 52) :
    (!signBit (BitVec.ofNat 64 (f * 2 ^ 52 + g)) && isNormal (BitVec.ofNat 64 (f * 2 ^ 52 + g))) = true := by
  have he := expField_ofFields (f := f) (by omega) hg
  rw [signBit_ofFields (by omega) hg]
  simp only [Bool.not_false, Bool.true_and, isNormal, Bool.and_eq_true, bne_iff_ne]
  constructor <;> intro h <;> rw [h] at he <;> simp at he <;> omega

/-- Its magnitude in units of 2^-1074. -/
theorem scaled_ofFields {f g : Nat} (h0 : 0 < f) (hf : f < 2047) (hg : g < 2 ^ 52) :
    scaled (BitVec.ofNat 64 (f * 2 ^ 52 + g)) = (2 ^ 52 + g) * 2 ^ (f - 1) := by
  have he := expField_ofFields (f := f) (by omega) hg
  have hne : expField (BitVec.ofNat 64 (f * 2 ^ 52 + g)) ≠ 0#11 := fun h => by rw [h] at he; simp at he; omega
  rw [scaled, if_neg hne, he, fracField_ofFields (by omega) hg]

/-! ## The magnitude of an input -/

theorem scaled_pos {e : Elem} (h : isPositiveFinite e = true) : 0 < scaled e := by
  unfold scaled
  split_ifs with h0
  · simp only [isPositiveFinite, isNormal, isDenormal, h0, Bool.and_eq_true, Bool.or_eq_true, bne_iff_ne,
      beq_iff_eq] at h
    rcases h.2 with h | h
    · exact absurd rfl h.1
    · exact Nat.pos_of_ne_zero fun hz => h.2 (BitVec.eq_of_toNat_eq (by simpa using hz))
  · positivity

theorem scaled_lt {e : Elem} (h : isPositiveFinite e = true) : scaled e < 2 ^ 2098 := by
  unfold scaled
  have hg := (fracField e).isLt
  split_ifs with h0
  · exact hg.trans (Nat.pow_lt_pow_right (by omega) (by omega))
  · have hE : (expField e).toNat ≤ 2046 := by
      have hne : expField e ≠ 2047#11 := by
        simp only [isPositiveFinite, isNormal, isDenormal, Bool.and_eq_true, Bool.or_eq_true, bne_iff_ne,
          beq_iff_eq] at h
        rcases h.2 with h | h
        · exact h.2
        · exact absurd h.1 h0
      have := (expField e).isLt
      have : (expField e).toNat ≠ 2047 := fun hh => hne (BitVec.eq_of_toNat_eq (by simpa using hh))
      omega
    calc (2 ^ 52 + (fracField e).toNat) * 2 ^ ((expField e).toNat - 1)
        < 2 ^ 53 * 2 ^ ((expField e).toNat - 1) := by
          apply Nat.mul_lt_mul_of_pos_right _ (by positivity)
          omega
      _ ≤ 2 ^ 53 * 2 ^ 2045 := Nat.mul_le_mul_left _ (Nat.pow_le_pow_right (by omega) (by omega))
      _ = 2 ^ 2098 := by rw [← pow_add]

/-! ## Exact powers -/

theorem evenPowerRoot_admissible {e : Elem} (h : isPositiveFinite e = true) (hp : isEvenPower e = true) :
    Admissible e (evenPowerRoot e) := by
  simp only [isEvenPower, Bool.and_eq_true, beq_iff_eq] at hp
  obtain ⟨k, hk⟩ : ∃ k, k = Nat.log2 (scaled e) := ⟨_, rfl⟩
  have hX : scaled e = 2 ^ k := by rw [hk]; exact hp.1.symm
  have hk2 : k < 2098 := by
    have := scaled_lt h
    rw [hX] at this
    exact (Nat.pow_lt_pow_iff_right (by omega)).1 this
  have hev : k % 2 = 0 := by rw [hk]; exact hp.2
  have hr : evenPowerRoot e = BitVec.ofNat 64 ((1560 - k / 2) * 2 ^ 52 + 0) := by rw [evenPowerRoot, ← hk, Nat.add_zero]
  have hs : scaled (evenPowerRoot e) ^ 2 * scaled e = 2 ^ 3222 := by
    rw [hr, scaled_ofFields (by omega) (by omega) (by positivity), hX, Nat.add_zero, ← pow_add, ← pow_mul, ← pow_add]
    congr 1
    omega
  refine ⟨?_, ?_, ?_⟩
  · rw [hr]
    exact normal_ofFields (by omega) (by omega) (by positivity)
  · rw [hs]
    have : 0 < 2 ^ 3222 := by positivity
    generalize 2 ^ 3222 = T at this ⊢
    omega
  · rw [hs]
    have : 0 < 2 ^ 3222 := by positivity
    generalize 2 ^ 3222 = T at this ⊢
    omega

/-! ## The truncated root -/

/-- The bounds of the truncated root, for any target `T` in place of 2^3222. -/
theorem root_bounds {T X q p m : Nat} (hX : 0 < X) (hq : q = Nat.sqrt (T / X)) (hm : 2 ^ 52 ≤ m) (hle : m * p ≤ q)
    (hlt : q < (m + 1) * p) (hT : 0 < T) :
    (2 ^ 14 - 1) ^ 2 * T < (m * p) ^ 2 * X * 2 ^ 28 ∧ (m * p) ^ 2 * X * 2 ^ 28 < (2 ^ 14 + 1) ^ 2 * T := by
  have hup : (m * p) ^ 2 * X ≤ T := by
    calc (m * p) ^ 2 * X ≤ q ^ 2 * X := Nat.mul_le_mul_right _ (Nat.pow_le_pow_left hle 2)
      _ ≤ T / X * X := Nat.mul_le_mul_right _ (by rw [hq, sq]; exact Nat.sqrt_le _)
      _ ≤ T := Nat.div_mul_le_self _ _
  have hlow : T < ((m + 1) * p) ^ 2 * X := by
    have h1 : T / X + 1 ≤ (q + 1) ^ 2 := by rw [hq, sq]; exact Nat.lt_succ_sqrt _
    calc T < (T / X + 1) * X := Nat.lt_mul_of_div_lt (Nat.lt_succ_self _) hX
      _ ≤ (q + 1) ^ 2 * X := Nat.mul_le_mul_right _ h1
      _ ≤ ((m + 1) * p) ^ 2 * X := Nat.mul_le_mul_right _ (Nat.pow_le_pow_left hlt 2)
  have hm1 : 2 ^ 52 * (m + 1) ≤ (2 ^ 52 + 1) * m := by omega
  constructor
  · have h2 : 2 ^ 104 * (((m + 1) * p) ^ 2 * X) ≤ (2 ^ 52 + 1) ^ 2 * ((m * p) ^ 2 * X) := by
      have := Nat.mul_le_mul_right X (Nat.pow_le_pow_left (Nat.mul_le_mul_right p hm1) 2)
      calc 2 ^ 104 * (((m + 1) * p) ^ 2 * X) = (2 ^ 52 * (m + 1) * p) ^ 2 * X := by ring
        _ ≤ ((2 ^ 52 + 1) * m * p) ^ 2 * X := this
        _ = (2 ^ 52 + 1) ^ 2 * ((m * p) ^ 2 * X) := by ring
    generalize ((m + 1) * p) ^ 2 * X = A at hlow h2
    generalize (m * p) ^ 2 * X = B at h2 ⊢
    omega
  · generalize (m * p) ^ 2 * X = B at hup ⊢
    omega

theorem someRoot_admissible {e : Elem} (h : isPositiveFinite e = true) : Admissible e (someRoot e) := by
  have hX := scaled_pos h
  have hXlt := scaled_lt h
  obtain ⟨X, rfl⟩ : ∃ X, X = scaled e := ⟨_, rfl⟩
  obtain ⟨q, hq⟩ : ∃ q, q = Nat.sqrt (2 ^ 3222 / scaled e) := ⟨_, rfl⟩
  obtain ⟨s, hs⟩ : ∃ s, s = Nat.log2 q - 52 := ⟨_, rfl⟩
  obtain ⟨m, hm⟩ : ∃ m, m = q / 2 ^ s := ⟨_, rfl⟩
  have hqlow : 2 ^ 562 ≤ q := by
    rw [hq, Nat.le_sqrt, ← pow_add, Nat.le_div_iff_mul_le hX]
    calc 2 ^ (562 + 562) * scaled e ≤ 2 ^ (562 + 562) * 2 ^ 2098 := Nat.mul_le_mul_left _ hXlt.le
      _ = 2 ^ 3222 := by rw [← pow_add]
  have hqup : q < 2 ^ 1612 := by
    rw [hq, Nat.sqrt_lt, ← pow_add]
    exact (Nat.div_le_self _ _).trans_lt (Nat.pow_lt_pow_right (by omega) (by omega))
  have hq0 : q ≠ 0 := by
    have : 0 < 2 ^ 562 := by positivity
    omega
  have hl1 : 562 ≤ Nat.log2 q := (Nat.le_log2 hq0).2 hqlow
  have hl2 : Nat.log2 q < 1612 := (Nat.log2_lt hq0).2 hqup
  have hle : m * 2 ^ s ≤ q := by rw [hm]; exact Nat.div_mul_le_self _ _
  have hlt : q < (m + 1) * 2 ^ s := by
    rw [hm]; exact Nat.lt_mul_of_div_lt (Nat.lt_succ_self _) (by positivity)
  have hmlow : 2 ^ 52 ≤ m := by
    rw [hm, Nat.le_div_iff_mul_le (by positivity), ← pow_add]
    exact (Nat.le_log2 hq0).1 (by omega)
  have hmup : m < 2 ^ 53 := by
    rw [hm, Nat.div_lt_iff_lt_mul (by positivity), ← pow_add]
    exact (Nat.log2_lt hq0).1 (by omega)
  have hr : someRoot e = BitVec.ofNat 64 ((s + 1) * 2 ^ 52 + (m - 2 ^ 52)) := by
    simp only [someRoot, ← hq, ← hs, ← hm]
  have hsc : scaled (someRoot e) = m * 2 ^ s := by
    rw [hr, scaled_ofFields (by omega) (by omega) (by omega), Nat.add_sub_cancel, Nat.add_sub_cancel' hmlow]
  refine ⟨?_, ?_⟩
  · rw [hr]
    exact normal_ofFields (by omega) (by omega) (by omega)
  · rw [hsc]
    exact root_bounds hX hq hmlow hle hlt (by positivity)

/-- The approximation is always one that R172 and R175 admit. -/
theorem rsqrt14F64_admissible {e : Elem} (h : isPositiveFinite e = true) : Admissible e (rsqrt14F64 e) := by
  unfold rsqrt14F64
  split_ifs with h1 h2
  · exact evenPowerRoot_admissible h h1
  · exact h2
  · exact someRoot_admissible h

/-- Every answer R172 and R175 admit, for an input that R173 does not fix, is one the free value can give. -/
theorem rsqrt14F64_free {e : Elem} (h1 : isEvenPower e = false) (h2 : Admissible e (Config.rsqrt14Draw e)) :
    rsqrt14F64 e = Config.rsqrt14Draw e := by
  rw [rsqrt14F64, if_neg (by simp [h1]), if_pos h2]

/-! ## The cases of RSQRT14 (R160) -/

theorem rsqrt14_nan {e : Elem} (h : isNan e = true) (daz : Bool) : rsqrt14 e daz = e ||| 0x0008000000000000#64 := by
  rw [rsqrt14, if_pos h]

/-- Without DAZ, or for an input that is no denormal, the input is taken as it is. -/
theorem flushInput_eq {e : Elem} {daz : Bool} (h : isDenormal e = false ∨ daz = false) : flushInput e daz = e := by
  rcases h with h | h <;> simp [flushInput, h]

theorem rsqrt14_positive {e : Elem} {daz : Bool} (h : isPositiveFinite e = true)
    (hd : isDenormal e = false ∨ daz = false) : rsqrt14 e daz = rsqrt14F64 e := by
  simp only [isPositiveFinite, isNormal, isDenormal, Bool.and_eq_true, Bool.or_eq_true, bne_iff_ne, beq_iff_eq,
    Bool.not_eq_true'] at h
  have hn : isNan e = false := by
    simp only [isNan, Bool.and_eq_false_iff, beq_eq_false_iff_ne]
    rcases h.2 with h | h
    · exact Or.inl h.2
    · rw [h.1]; exact Or.inl (by decide)
  have hz : isZero e = false := by
    simp only [isZero, Bool.and_eq_false_iff, beq_eq_false_iff_ne]
    rcases h.2 with h | h
    · exact Or.inl h.1
    · exact Or.inr h.2
  have hi : isInf e = false := by
    simp only [isInf, Bool.and_eq_false_iff, beq_eq_false_iff_ne]
    rcases h.2 with h | h
    · exact Or.inl h.2
    · rw [h.1]; exact Or.inl (by decide)
  simp [rsqrt14, flushInput_eq hd, hn, hz, hi, h.1]

end Sys2Proof.Machine
end

