-- ==== Sys2Proof/Tests/Slice0.lean ====
section
/-!
SUPPORT. The model's own tests: the well-formedness checks, encodings written out from spec/30_encoding.md and the
vectors of spec/95_test_vectors.md, a few single steps, and for every statement with hypotheses a witness that meets
them.
-/

namespace Sys2Proof.Tests

open Sys2Proof.Machine

-- One theorem after another: those evaluated by the kernel would else wait for each other, a thread for each.
set_option Elab.async false

/-! ## Helpers -/

/-- A launched state (70_reset_and_hazards.md R231) in 64-bit mode with the memory `m`. -/
def demo (m : Memory) : State :=
  { State.reset with mode := .mode64, cr4Osxsave := true, xcr0 := 0xE7#64, pc := 0x1000#64, mem := m }

/-- A launched state in 32-bit mode with flat segments. -/
def demo32 (m : Memory) : State :=
  { demo m with mode := .mode32, segBase := ⟨0#64, 0#64, 0#64, 0#64, 0#64, 0#64⟩ }

/-- Bytes as memory from address `a` on. -/
def bytesAt (a : Nat) (bs : List Byte) : Memory := bs.zipIdx.map fun c => (a + c.2, c.1)

/-- The bytes of a double, least significant first. -/
def le (e : Elem) : List Byte := (List.range 8).map fun i => e.extractLsb' (8 * i) 8

/-- A vector register from its elements, element 0 first; the others 0. -/
def vec (es : List Elem) : BitVec Config.maxvl := vecOf fun j => (es[j]?).getD 0#64

/-- `s` with opmask register `r` set. -/
def withK (s : State) (r : MaskNum) (b : Nat) : State :=
  { s with opmask := { kw := s.opmask.kw, k := s.opmask.k.set r.toNat (BitVec.ofNat _ b) r.isLt } }

/-- `s` with general register `r` set. -/
def withX (s : State) (r : GprNum) (w : Word) : State := { s with x := s.x.set r.toNat w r.isLt }

/-- The instruction pointer and a vector register after an outcome that is a next state. -/
def seen (d : VecNum) : Host.Outcome State Fault Refusal → Option (Word × BitVec Config.maxvl)
  | .next t => some (t.pc, t.getV d)
  | _ => none

/-- The fault of an outcome. -/
def faultOf : Host.Outcome State Fault Refusal → Option Fault
  | .fault r => some r
  | _ => none

/-- The refusal of an outcome. -/
def refusalOf : Host.Outcome State Fault Refusal → Option Refusal
  | .refused r => some r
  | _ => none

/-- Operands without legacy bytes. -/
def ops (d : VecNum) (src : Src) (k : MaskNum := 0#3) (z : Bool := false) : Operands := ⟨[], d, src, k, z⟩

/-! ## Well-formedness: each check refuses an ill-formed term -/

theorem test_wf_accepts : (Instr.vrsqrt14pd512 (ops 1 (.reg 2))).wf = true := by decide
/-- 30_encoding.md R93: a base with low bits 100b needs SIB. -/
theorem test_wf_base_needs_sib : (ops 1 (.mem false (.base 12 .none false))).wf = false := by decide
/-- 30_encoding.md R95: `mod` = 00b with 101b is no base. -/
theorem test_wf_base_needs_disp : (ops 1 (.mem false (.base 13 .none false))).wf = false := by decide
/-- 30_encoding.md R94(b). -/
theorem test_wf_sib_base_needs_disp : (ops 1 (.mem false (.sib 0 4 5 .none))).wf = false := by decide
/-- 30_encoding.md R105. -/
theorem test_wf_zeroing_needs_mask : (ops 1 (.reg 2) 0 true).wf = false := by decide
/-- 30_encoding.md R81: ten legacy bytes and six more. -/
theorem test_wf_length : (Operands.mk (List.replicate 10 .addressSize) 1 (.reg 2) 0 false).wf = false := by decide
/-- 30_encoding.md R88, R99: what 32-bit mode cannot name. -/
theorem test_wf_fits32 : (ops 8 (.reg 2)).fits32 = false ∧ (ops 1 (.reg 16)).fits32 = false ∧
    (Operands.mk [.addressSize] 1 (.reg 2) 0 false).fits32 = false := by decide

/-! ## Decoding: words written out bit by bit from 30_encoding.md R82 to R95 -/

/-- Vector E5: 62H; R X B R' inverted 1000, 00, 10; 1 1111 1 01; 0 10 0 1 000; 4EH; 11 001 110. -/
theorem test_decode_e5 :
    decode .mode64 [0b01100010#8, 0b10000010#8, 0b11111101#8, 0b01001000#8, 0b01001110#8, 0b11001110#8] =
      .instr (.vrsqrt14pd512 (ops 17 (.reg 30))) := by decide
/-- Vector E7: SIB 11 001 011, disp8 01. -/
theorem test_decode_e7 : decode .mode64 [0x62#8, 0xF2#8, 0xFD#8, 0x4F#8, 0x4E#8, 0x6C#8, 0xCB#8, 0x01#8] =
    .instr (.vrsqrt14pd512 (ops 5 (.mem false (.sib 3 1 3 (.disp8 1))) 7)) := by decide
/-- Vector E8: the same with disp32. -/
theorem test_decode_e8 :
    decode .mode64 [0x62#8, 0xF2#8, 0xFD#8, 0x4F#8, 0x4E#8, 0xAC#8, 0xCB#8, 0x44#8, 0x00#8, 0x00#8, 0x00#8] =
      .instr (.vrsqrt14pd512 (ops 5 (.mem false (.sib 3 1 3 (.disp32 0x44))) 7)) := by decide
/-- Vector E11: SIB 00 100 100, no index, base RSP. -/
theorem test_decode_e11 : decode .mode64 [0x62#8, 0xF2#8, 0xFD#8, 0x08#8, 0x4E#8, 0x54#8, 0x24#8, 0x01#8] =
    .instr (.vrsqrt14pd128 (ops 2 (.mem false (.sib 0 4 4 (.disp8 1))))) := by decide
/-- Vector E12. -/
theorem test_decode_e12 : decode .mode64 [0x62#8, 0xF2#8, 0xFD#8, 0x29#8, 0x4E#8, 0xD1#8] =
    .instr (.vrsqrt14pd256 (ops 2 (.reg 1) 1)) := by decide
/-- Vectors X1 to X5 and X9: #UD by the bytes alone. -/
theorem test_decode_undefined :
    decode .mode64 [0x62#8, 0xF2#8, 0xF5#8, 0x48#8, 0x4E#8, 0xCA#8] = .undefined 6 ∧
    decode .mode64 [0x62#8, 0xF2#8, 0x85#8, 0x48#8, 0x4E#8, 0xCA#8] = .undefined 6 ∧
    decode .mode64 [0x62#8, 0xF2#8, 0xFD#8, 0x40#8, 0x4E#8, 0xCA#8] = .undefined 6 ∧
    decode .mode64 [0x62#8, 0xF2#8, 0xFD#8, 0x68#8, 0x4E#8, 0xCA#8] = .undefined 6 ∧
    decode .mode64 [0x62#8, 0xF2#8, 0xFD#8, 0x58#8, 0x4E#8, 0xCA#8] = .undefined 6 ∧
    decode .mode64 [0xF0#8, 0x62#8, 0xF2#8, 0xFD#8, 0x48#8, 0x4E#8, 0x0E#8] = .undefined 7 := by decide
/-- Vectors X7, X8, X10, X11 and the BOUND rule R82. -/
theorem test_decode_rejected :
    decode .mode64 [0x62#8, 0xF2#8, 0x7D#8, 0x48#8, 0x4E#8, 0xCA#8] = .rejected .otherInstruction ∧
    decode .mode64 [0x62#8, 0xF2#8, 0xFD#8, 0x48#8, 0x4F#8, 0xCA#8] = .rejected .otherInstruction ∧
    decode .mode64 [0x62#8, 0xF6#8, 0xFD#8, 0x48#8, 0x4E#8, 0xCA#8] = .rejected .reservedEvexBits ∧
    decode .mode64 [0x62#8, 0xF2#8, 0xF9#8, 0x48#8, 0x4E#8, 0xCA#8] = .rejected .reservedEvexBits ∧
    decode .mode32 [0x62#8, 0x72#8, 0xFD#8, 0x48#8, 0x4E#8, 0xCA#8] = .rejected .bound := by decide
/-- The rows of spec/opcode_table.json, in the table's numbering and with the bytes the other way round. -/
theorem test_table_words :
    (decodeTableWord 40 0x6202FD084E).map Instr.form = some .xmm ∧
    (decodeTableWord 40 0x6202FD284E).map Instr.form = some .ymm ∧
    (decodeTableWord 40 0x6202FD484E).map Instr.form = some .zmm ∧
    (decodeTableWord 40 0x4E48FD0262).map Instr.form = some .zmm := by decide +kernel
/-- Vectors E9 and E20, encoded. -/
theorem test_encode :
    encode (.vrsqrt14pd256 (ops 9 (.mem true (.direct 0x10 false false)) 3 true)) =
      [0x62#8, 0x72#8, 0xFD#8, 0xBB#8, 0x4E#8, 0x0D#8, 0x10#8, 0x00#8, 0x00#8, 0x00#8] ∧
    encode (.vrsqrt14pd512 ⟨[.addressSize], 2, .mem false (.base 0 .none false), 0, false⟩) =
      [0x67#8, 0x62#8, 0xF2#8, 0xFD#8, 0x48#8, 0x4E#8, 0x10#8] := by decide

/-! ## The element function: vectors S1 to S21 of 95_test_vectors.md -/

theorem test_element_special :
    rsqrt14 0x0000000000000000 true = 0x7FF0000000000000 ∧ rsqrt14 0x8000000000000000 false = 0xFFF0000000000000 ∧
    rsqrt14 0x7FF0000000000000 false = 0x0000000000000000 ∧ rsqrt14 0xFFF0000000000000 true = 0xFFF8000000000000 ∧
    rsqrt14 0xFFEFFFFFFFFFFFFF false = 0xFFF8000000000000 ∧ rsqrt14 0x0000000000000001 true = 0x7FF0000000000000 ∧
    rsqrt14 0x8000000000000001 true = 0xFFF0000000000000 ∧ rsqrt14 0x8000000000000001 false = 0xFFF8000000000000 ∧
    rsqrt14 0x7FF0000000000001 false = 0x7FF8000000000001 ∧ rsqrt14 0xFFF8000000000001 true = 0xFFF8000000000001 ∧
    rsqrt14 0xFFF0000000000001 false = 0xFFF8000000000001 := by decide +kernel

theorem test_element_powers :
    rsqrt14 0x0000000000000001 false = 0x6180000000000000 ∧ rsqrt14 0x0004000000000000 false = 0x5FF0000000000000 ∧
    rsqrt14 0x3FF0000000000000 true = 0x3FF0000000000000 ∧ rsqrt14 0x3FD0000000000000 true = 0x4000000000000000 ∧
    rsqrt14 0x4010000000000000 true = 0x3FE0000000000000 ∧ rsqrt14 0x0010000000000000 true = 0x5FE0000000000000 ∧
    rsqrt14 0x7FD0000000000000 true = 0x2000000000000000 ∧ rsqrt14 0x4070000000000000 true = 0x3FB0000000000000 := by
  decide +kernel

/-- The interval of vector S22 (2.0): its end points are admissible and their neighbours outside are not. -/
theorem test_admissible_interval :
    Admissible 0x4000000000000000 0x3FE6A043E405A1D0 ∧ ¬Admissible 0x4000000000000000 0x3FE6A043E405A1CF ∧
    Admissible 0x4000000000000000 0x3FE6A0F8E8F8D5C9 ∧ ¬Admissible 0x4000000000000000 0x3FE6A0F8E8F8D5CA := by
  decide +kernel

/-! ## Single steps: vectors of 95_test_vectors.md Part 5 -/

/-- V4: all masked off under merging; the elements stay and bits 511:128 are cleared. -/
theorem test_xmm_all_masked :
    seen 1 (step ((demo (bytesAt 0x1000 [0x62, 0xF2, 0xFD, 0x09, 0x4E, 0xCA])).setV 1 (vec [7, 8, 9, 10]))) =
      some (0x1006, vec [7, 8]) := by decide +kernel

/-- V14: a misaligned operand at [rsp+16]; no alignment fault. -/
theorem test_xmm_misaligned :
    seen 2 (step (withX (demo (bytesAt 0x1000 [0x62, 0xF2, 0xFD, 0x08, 0x4E, 0x54, 0x24, 0x01] ++
      bytesAt 0x2011 (le 0x3FF0000000000000 ++ le 0x4010000000000000))) 4 0x2001)) =
      some (0x1008, vec [0x3FF0000000000000, 0x3FE0000000000000]) := by decide +kernel

/-- V3: mask bits 7:4 are ignored, the masked-off signalling NaN leaves no trace. -/
theorem test_ymm_merging :
    seen 2 (step (((withK (demo (bytesAt 0x1000 [0x62, 0xF2, 0xFD, 0x29, 0x4E, 0xD1])) 1 0xF5).setV 1
      (vec [0x3FF0000000000000, 0xBFF0000000000000, 0x3FD0000000000000, 0x7FF0000000000001, 5])).setV 2
      (vec [1, 2, 3, 4, 5]))) = some (0x1006, vec [0x3FF0000000000000, 2, 0x4000000000000000, 4]) := by decide +kernel

/-- P2 step 4: RIP-relative broadcast with zeroing. -/
theorem test_ymm_rip_broadcast :
    seen 9 (step (withK (demo (bytesAt 0x1000 [0x62, 0x72, 0xFD, 0xBB, 0x4E, 0x0D, 0x10, 0x00, 0x00, 0x00] ++
      bytesAt 0x101A (le 0x3FB0000000000000))) 3 0x0A)) =
      some (0x100A, vec [0, 0x4010000000000000, 0, 0x4010000000000000]) := by decide +kernel

/-- V7: source and destination the same register. -/
theorem test_zmm_same_register :
    seen 1 (step ((withK (demo (bytesAt 0x1000 [0x62, 0xF2, 0xFD, 0x49, 0x4E, 0xC9])) 1 0x81).setV 1
      (vec [0x4010000000000000, 1, 2, 3, 4, 5, 6, 0x3FD0000000000000]))) =
      some (0x1006, vec [0x3FE0000000000000, 1, 2, 3, 4, 5, 6, 0x4000000000000000]) := by decide +kernel

/-- X17: a non-canonical address in DS. -/
theorem test_zmm_non_canonical :
    faultOf (step (withX (demo (bytesAt 0x1000 [0x62, 0xF2, 0xFD, 0x48, 0x4E, 0x0E])) 6 0x0100000000000000)) =
      some (.memFault .generalProtection 0x1000) := by decide +kernel

/-- Each row of the table runs as the first instruction after a launch from reset. -/
theorem test_first_instruction :
    ((seen 24 (step (State.reset.withFetchWord 40 0x6202FD084E))).map (·.1) = some 0xFFF6#64) ∧
    ((seen 24 (step (State.reset.withFetchWord 40 0x6202FD284E))).map (·.1) = some 0xFFF6#64) ∧
    ((seen 24 (step (State.reset.withFetchWord 40 0x6202FD484E))).map (·.1) = some 0xFFF6#64) := by decide +kernel

/-! ## Witnesses: concrete states and operands that meet the hypotheses of the statements

Each is named after its statement. Shared by several: the register form `VRSQRT14PD r1, r2`, the memory form
`VRSQRT14PD r1, [RAX]` with RAX = 0, and its broadcast form, with the first 64 bytes of memory admitted. -/

def regOps : Operands := ops 1 (.reg 2)
def rax : Addr := .base 0 .none false
def memOps (bcast : Bool) (k : MaskNum := 0#3) : Operands := ops 1 (.mem bcast rax) k
def zeros : State := demo (bytesAt 0 (List.replicate 64 0#8))

theorem completes {f : Form} {o : Operands} {s : State} (h : Enterable f o s ∧ SourceReadable f o s) :
    ∃ t, exec (f.instr o) s = .next t :=
  ⟨completed f o s, by cases f <;> exact execVrsqrt14pd_eq_next_iff.2 ⟨h.1, h.2, rfl⟩⟩

/-! ### Encoding -/

theorem witness_DecodeOfEncodeIn64BitMode :
    (Instr.vrsqrt14pd512 (ops 17 (.mem true (.sib 3 15 13 (.disp8 0x80))) 7 true)).operands.src.wf = true := by decide

theorem witness_DecodeOfEncodeOutside64BitMode :
    let i := Instr.vrsqrt14pd256 ⟨[.segment .fs], 7, .mem false (.base 5 (.disp32 1) false), 0, false⟩
    Mode.mode32 ≠ .mode64 ∧ i.operands.src.wf = true ∧ i.operands.dest.getLsbD 3 = false ∧
      i.operands.src.extX = false := by decide

theorem witness_DecodedBytesAreTheEncoding :
    decode .mode32 [0x62, 0xF2, 0xFD, 0x48, 0x4E, 0xCA, 0x90] = .instr (.vrsqrt14pd512 regOps) := by decide

theorem witness_RowSelection : 5 ≤ (List.replicate 5 (0#8 : Byte)).length := by decide

/-- X1 with a register source, vvvvn = 1110b, behind four legacy bytes. -/
theorem witness_SpaceOutsideRowsRaisesInvalidOpcode :
    let ls := List.replicate 4 LegacyPrefix.addressSize
    let s := demo (bytesAt 0x1000 ([0x67, 0x67, 0x67, 0x67, 0x62, 0xF2, 0xF5, 0x48, 0x4E, 0xCA] ++ List.replicate 5 0#8))
    s.text = ls.map LegacyPrefix.byte ++
        0x62#8 :: 0xF2#8 :: 0xF5#8 :: 0x48#8 :: 0x4E#8 :: 0xCA#8 :: List.replicate 5 0#8 ∧
      ls.length ≤ 4 ∧ 5 ≤ (List.replicate 5 (0#8 : Byte)).length ∧ s.mode = .mode64 ∧ s.textInRange 15 = true ∧
      (0x62F2F5484E#40 &&& 0xFF0F8700FF#40) = 0x620285004E#40 ∧
      (0x62F2F5484E#40 &&& 0xFF0FFF68FF#40) ≠ rowMatch .xmm ∧
      (0x62F2F5484E#40 &&& 0xFF0FFF68FF#40) ≠ rowMatch .ymm ∧
      (0x62F2F5484E#40 &&& 0xFF0FFF68FF#40) ≠ rowMatch .zmm := by decide +kernel

/-- Behind four legacy bytes, at the boundary. -/
theorem witness_VvvvReservedRaisesInvalidOpcode :
    let ls := List.replicate 4 LegacyPrefix.addressSize
    let s := demo (bytesAt 0x1000 ([0x67, 0x67, 0x67, 0x67, 0x62, 0xF2, 0x85, 0x48, 0x4E, 0xCA] ++ List.replicate 5 0#8))
    s.text = ls.map LegacyPrefix.byte ++
        0x62#8 :: 0xF2#8 :: 0x85#8 :: 0x48#8 :: 0x4E#8 :: 0xCA#8 :: List.replicate 5 0#8 ∧
      ls.length ≤ 4 ∧ s.mode = .mode64 ∧ s.textInRange 15 = true ∧ (0xF2#8).extractLsb' 0 4 = 2#4 ∧
      (0x85#8).getLsbD 7 = true ∧ (0x85#8).extractLsb' 0 3 = 5#3 ∧ (0x85#8).extractLsb' 3 4 ≠ 15#4 := by
  decide +kernel

/-- Behind nine legacy bytes, fifteen bytes in all. -/
theorem witness_RegisterSourceWithBroadcastBitRaisesInvalidOpcode :
    let ls := List.replicate 9 (LegacyPrefix.segment .fs)
    let s := demo (bytesAt 0x1000 (List.replicate 9 0x64 ++ [0x62, 0xF2, 0xFD, 0x58, 0x4E, 0xCA]))
    s.text = ls.map LegacyPrefix.byte ++ [0x62#8, 0xF2#8, 0xFD#8, 0x58#8, 0x4E#8, 0xCA#8] ∧ ls.length ≤ 9 ∧
      s.mode = .mode64 ∧ s.textInRange 15 = true ∧
      (0xF2#8).extractLsb' 0 4 = 2#4 ∧ (0xFD#8).getLsbD 7 = true ∧ (0xFD#8).extractLsb' 0 3 = 5#3 ∧
      (0xCA#8).extractLsb' 6 2 = 3#2 ∧ (0x58#8).getLsbD 4 = true := by decide +kernel

/-- X9's LOCK byte and, as the second clause, the REX byte 4FH. -/
theorem witness_ForbiddenLegacyByteRaisesInvalidOpcode :
    let i := Instr.vrsqrt14pd512 (memOps false)
    let s := fun b : Byte => demo (bytesAt 0x1000 (b :: encode i))
    (s 0xF0).text = 0xF0#8 :: (encode i ++ []) ∧ (s 0x4F).text = 0x4F#8 :: (encode i ++ []) ∧
      i.operands.src.wf = true ∧ (s 0x4F).mode = .mode64 ∧ (0x4F#8).extractLsb' 4 4 = 4#4 ∧
      i.operands.length + 1 ≤ 15 ∧ (s 0xF0).textInRange (i.operands.length + 1) = true ∧
      (s 0x4F).textInRange (i.operands.length + 1) = true := by decide +kernel

/-- One text for each clause: no EVEX byte behind legacy bytes; BOUND; a reserved bit, behind LOCK; another opcode; and
the fields of the other clauses. -/
theorem witness_ForeignEncodingsRefused :
    ((demo (bytesAt 0x1000 [0x67, 0x90])).text = [0x67#8] ++ 0x90#8 :: [] ∧ precedingByte .mode64 0x67 = true ∧
      precedingByte .mode64 0x90 = false) ∧
    ((demo32 (bytesAt 0x1000 [0x62, 0xB2, 0xFD, 0x48, 0x4E, 0xCA])).text =
        [] ++ 0x62#8 :: [0xB2#8, 0xFD#8, 0x48#8, 0x4E#8, 0xCA#8] ∧ precedingByte .mode32 0x62 = false ∧
      (0xB2#8).extractLsb' 6 2 ≠ 3#2) ∧
    ((demo (bytesAt 0x1000 [0xF0, 0x62, 0xF6, 0xFD, 0x48, 0x4E, 0xCA])).text =
        [0xF0#8] ++ 0x62#8 :: [0xF6#8, 0xFD#8, 0x48#8, 0x4E#8, 0xCA#8] ∧ precedingByte .mode64 0xF0 = true ∧
      precedingByte .mode64 0x62 = false ∧ (0xF6#8).extractLsb' 2 2 ≠ 0#2 ∧ (0xF9#8).getLsbD 2 = false) ∧
    ((demo (bytesAt 0x1000 [0x62, 0xF2, 0xFD, 0x48, 0x4F, 0xCA])).text =
        [] ++ 0x62#8 :: [0xF2#8, 0xFD#8, 0x48#8, 0x4F#8, 0xCA#8] ∧
      (0xF2#8).extractLsb' 2 2 = 0#2 ∧ (0xFD#8).getLsbD 2 = true ∧ (0x4F#8 : Byte) ≠ 0x4E#8 ∧
      (0xF3#8).extractLsb' 0 2 ≠ 2#2 ∧ (0xFC#8).extractLsb' 0 2 ≠ 1#2 ∧ (0x7D#8).getLsbD 7 = false) := by
  decide +kernel

/-- All bytes of E7 but the last, the disp8. -/
theorem witness_TextThatEndsIsRefused :
    let i := Instr.vrsqrt14pd512 (ops 5 (.mem false (.sib 3 1 3 (.disp8 1))) 7)
    let s := demo (bytesAt 0x1000 [0x62, 0xF2, 0xFD, 0x4F, 0x4E, 0x6C, 0xCB])
    encode i = s.text ++ [0x01#8] ∧ i.operands.src.wf = true ∧ s.mode = .mode64 := by decide +kernel

/-! ### Steps -/

theorem witness_StepRunsDecodedInstruction :
    let s := demo (bytesAt 0x1000 [0x62, 0xF2, 0xFD, 0x48, 0x4E, 0xCA])
    decode s.mode s.text = .instr (.vrsqrt14pd512 regOps) := by decide +kernel

/-- The whole program is one instruction, its source a register. -/
theorem witness_LaunchedProgramRunsItsFirstInstruction :
    let i := Form.xmm.instr regOps
    let s := demo (bytesAt 0x1000 (encode i))
    Launched [i] s ∧ i.wf = true ∧ s.textInRange i.operands.length = true ∧ s.mode = .mode64 ∧
      SourceReadable i.form i.operands s :=
  ⟨⟨Or.inl rfl, by decide, rfl, rfl, fun _ => rfl, by decide, by decide, by decide, [], by decide +kernel⟩, by decide,
    by decide +kernel, rfl, trivial⟩

/-- Bytes that wrap past the last address of 32-bit mode. -/
theorem witness_TextIsTheBytesAtPc :
    let s := { demo32 ((0#8 : Byte) :: [] |> bytesAt 0) with
      pc := 0xFFFFFFFF#64, mem := bytesAt 0 [2] ++ bytesAt 0xFFFFFFFF [1] }
    ∀ (k : Nat) (h : k < [(1#8 : Byte), 2#8].length), s.ordinary? (s.textAddr k) = some [(1#8 : Byte), 2#8][k] := by
  decide +kernel

/-! ### The element function: an element for each row of the table -/

theorem witness_ElementDecisionTable :
    (isNan 0xFFF8000000000000 = true ∧ (0xFFF8000000000000#64).getLsbD 51 = true) ∧
    (isNan 0x7FF7FFFFFFFFFFFF = true ∧ (0x7FF7FFFFFFFFFFFF#64).getLsbD 51 = false) ∧
    (isDenormal 0x000FFFFFFFFFFFFF = true ∧ signBit 0x000FFFFFFFFFFFFF = false) ∧
    (isDenormal 0x8000000000000001 = true ∧ signBit 0x8000000000000001 = true) ∧
    (isNormal 0x0010000000000000 = true ∧ signBit 0x0010000000000000 = false) ∧
    (isNormal 0xFFEFFFFFFFFFFFFF = true ∧ signBit 0xFFEFFFFFFFFFFFFF = true) := by decide +kernel

theorem witness_RelativeErrorBound : isPositiveFinite 0x7FEFFFFFFFFFFFFF = true := by decide +kernel

/-- 0.25 is 2 to the power -2. -/
theorem witness_EvenPowersAreExact :
    isPositiveFinite 0x3FD0000000000000 = true ∧ elemValue 0x3FD0000000000000 = (2 : ℚ) ^ (-2 * 1 : ℤ) := by
  refine ⟨by decide +kernel, ?_⟩
  have h1 : signBit 0x3FD0000000000000 = false := by decide
  have h2 : expField 0x3FD0000000000000 = 1021#11 := by decide
  have h3 : fracField 0x3FD0000000000000 = 0#52 := by decide
  have h4 : ¬1021#11 = 0#11 := by decide
  simp only [elemValue, h1, h2, h3, if_neg h4]
  norm_num

theorem witness_ApproximationIsPositiveNormal : isPositiveFinite 0x0000000000000001 = true := by decide +kernel

/-! ### Completion, results and frames -/

theorem enterable_reg (f : Form) : Enterable f regOps zeros :=
  entryStop_eq_none_iff.1 (by cases f <;> decide +kernel)

theorem enterable_mem (f : Form) (b : Bool) : Enterable f (memOps b) zeros :=
  entryStop_eq_none_iff.1 (by cases f <;> cases b <;> decide +kernel)

theorem readable_mem (f : Form) (b : Bool) : SourceReadable f (memOps b) zeros :=
  sourceStop_eq_none_iff.1 (by cases f <;> cases b <;> decide +kernel)

/-- A memory operand at the end of the canonical addresses' lower half: its last byte is the last of that half. -/
theorem witness_Xmm128Completes :
    let s := withX (demo (bytesAt 0x7FFFFFFFFFF0 (List.replicate 16 0#8))) 0 0x7FFFFFFFFFF0
    Enterable .xmm (memOps false) s ∧ SourceReadable .xmm (memOps false) s :=
  ⟨entryStop_eq_none_iff.1 (by decide +kernel), sourceStop_eq_none_iff.1 (by decide +kernel)⟩

theorem witness_Ymm256Completes : Enterable .ymm (memOps true) zeros ∧ SourceReadable .ymm (memOps true) zeros :=
  ⟨enterable_mem _ _, readable_mem _ _⟩

theorem witness_Zmm512Completes : Enterable .zmm (memOps false) zeros ∧ SourceReadable .zmm (memOps false) zeros :=
  ⟨enterable_mem _ _, readable_mem _ _⟩

/-- Source and destination the same register, under a mask. -/
theorem witness_RegisterSourceResult :
    Enterable .ymm (ops 2 (.reg 2) 1) (withK zeros 1 5) ∧ (ops 2 (.reg 2) 1).src = .reg 2 ∧
      (withK zeros 1 5).kBit 1 2 = true :=
  ⟨entryStop_eq_none_iff.1 (by decide +kernel), rfl, by decide +kernel⟩

theorem witness_FullWidthElementIsLittleEndian :
    (memOps false).src = .mem false rax ∧
      ∀ i, i < 8 → zeros.mem.byte? (operandByte .zmm (memOps false) false rax zeros (8 * 7 + i)).toNat = some 0#8 :=
  ⟨rfl, by decide +kernel⟩

theorem witness_BroadcastElementIsTheSameForAll :
    (memOps true).src = .mem true rax ∧
      ∀ i, i < 8 → zeros.mem.byte? (operandByte .zmm (memOps true) true rax zeros i).toNat = some 0#8 :=
  ⟨rfl, by decide +kernel⟩

theorem witness_UpperBitsAreZeroed : ∃ t, exec (Form.xmm.instr (memOps false)) zeros = .next t :=
  completes ⟨enterable_mem _ _, readable_mem _ _⟩

theorem witness_MergingKeepsMaskedElements :
    (∃ t, exec (Form.zmm.instr (ops 1 (.reg 2) 1)) zeros = .next t) ∧ (ops 1 (.reg 2) 1).zeroing = false ∧
      (ops 1 (.reg 2) 1).mask ≠ 0#3 ∧ zeros.kBit 1 7 = false :=
  ⟨completes ⟨entryStop_eq_none_iff.1 (by decide +kernel), trivial⟩, rfl, by decide, by decide +kernel⟩

theorem witness_ZeroingClearsMaskedElements :
    (∃ t, exec (Form.zmm.instr (ops 1 (.reg 2) 7 true)) zeros = .next t) ∧ (ops 1 (.reg 2) 7 true).zeroing = true ∧
      zeros.kBit 7 0 = false :=
  ⟨completes ⟨entryStop_eq_none_iff.1 (by decide +kernel), trivial⟩, rfl, by decide +kernel⟩

theorem witness_FlagsAreNotAffected : ∃ t, exec (Form.ymm.instr regOps) zeros = .next t :=
  completes ⟨enterable_reg _, trivial⟩

/-! ### Independence -/

/-- Every bit of MXCSR but DAZ set against none. -/
theorem witness_OnlyDazOfMxcsrMatters : mxcsrDaz 0xFFFFFFBF#32 = mxcsrDaz zeros.mxcsr := by decide +kernel

/-- A file of 16-bit registers against one of 64 bits, with mask bits that differ at and above KL only. -/
theorem witness_OnlyNamedMaskBitsMatter :
    let m : Opmasks := { kw := 16, k := (Vector.replicate 8 0#16).set 1 0xFFFC#16 }
    (ops 1 (.reg 2) 1).mask ≠ 0#3 ∧ ∀ j, j < formKl .xmm → m.bit 1 j = zeros.opmask.bit 1 j :=
  ⟨by decide, by decide +kernel⟩

/-- A source register that differs above bit 127 only, source and destination the same. -/
theorem witness_SourceBitsAboveVlDoNotMatter :
    (ops 2 (.reg 2)).src = .reg 2 ∧
      (∀ j, j < formKl .xmm → vecElem (vec [0, 0, 5]) j = vecElem (zeros.getV 2) j) ∧
      ∃ t, exec (Form.xmm.instr (ops 2 (.reg 2))) zeros = .next t :=
  ⟨rfl, by decide +kernel, completes ⟨entryStop_eq_none_iff.1 (by decide +kernel), trivial⟩⟩

/-- A masked-off element that becomes a signalling NaN. -/
theorem witness_MaskedOffElementsDoNotEnterTheResult :
    (ops 1 (.reg 2) 1).src = .reg 2 ∧ (2#5 : VecNum) ≠ (ops 1 (.reg 2) 1).dest ∧
      (∀ j, j < formKl .xmm → ((ops 1 (.reg 2) 1).mask = 0#3 ∨ (withK zeros 1 1).kBit 1 j = true) →
        vecElem (vec [0, 0x7FF0000000000001]) j = vecElem ((withK zeros 1 1).getV 2) j) ∧
      ∃ t, exec (Form.xmm.instr (ops 1 (.reg 2) 1)) (withK zeros 1 1) = .next t :=
  ⟨rfl, by decide, by decide +kernel, completes ⟨entryStop_eq_none_iff.1 (by decide +kernel), trivial⟩⟩

theorem witness_PrivilegeDoesNotMatter :
    zeros.cr0Am = false ∧ ∃ t, exec (Form.zmm.instr (memOps true)) zeros = .next t :=
  ⟨rfl, completes ⟨enterable_mem _ _, readable_mem _ _⟩⟩

/-- A part without fault suppression, and an operand that is there whole although one element alone is selected. -/
theorem witness_SuppressionDoesNotChangeResults :
    let s := { withK zeros 1 1 with part := { zeros.part with faultSuppression := false } }
    s.part.faultSuppression = false ∧ ∃ t, exec (Form.zmm.instr (memOps false 1)) s = .next t :=
  ⟨rfl, completes ⟨entryStop_eq_none_iff.1 (by decide +kernel), sourceStop_eq_none_iff.1 (by decide +kernel)⟩⟩

/-! ### Memory operands -/

theorem witness_LinearAddressIn64BitMode :
    zeros.mode = .mode64 ∧ (memOps false).hasAddressSize = false ∧
      (Operands.mk [.addressSize] 2 (.mem false rax) 0 false).hasAddressSize = true := by decide

theorem witness_LinearAddressIn32BitMode : (demo32 []).mode = .mode32 := rfl

/-- Two overrides, a 67H byte after them; and 67H alone. -/
theorem witness_SegmentSelection :
    (Operands.mk [.segment .gs, .segment .fs, .addressSize] 2 (.mem false rax) 0 false).legacy =
        [.segment .gs] ++ .segment .fs :: List.replicate 1 .addressSize ∧
      (Operands.mk [.addressSize] 2 (.mem false rax) 0 false).legacy = List.replicate 1 .addressSize := ⟨rfl, rfl⟩

/-- Index number 0100b, no index, and a negative displacement. -/
theorem test_address_boundary :
    (operandByte .zmm (memOps true) true (.sib 3 4 0 (.disp32 0xFFFFFFFF)) zeros 0 = 0xFFFFFFFFFFFFFFFF) ∧
    (operandByte .zmm (memOps false) false (.base 0 (.disp8 0x80) false) zeros 0 = 0xFFFFFFFFFFFFE000) ∧
    (operandByte .zmm (memOps true) true (.direct 0x10 true true) zeros 0 = 0x1016) := by decide +kernel

/-- Both widths, at the last address of the lower half and the first of the upper half, and beside them. -/
theorem witness_CanonicalAddresses :
    let w := { zeros with part := { zeros.part with linearWidth := .bits57 } }
    zeros.part.linearWidth = .bits48 ∧ w.part.linearWidth = .bits57 ∧
      zeros.canonical 0x00007FFFFFFFFFFF = true ∧ zeros.canonical 0x0000800000000000 = false ∧
      zeros.canonical 0xFFFF800000000000 = true ∧ zeros.canonical 0xFFFF7FFFFFFFFFFF = false ∧
      w.canonical 0x00FFFFFFFFFFFFFF = true ∧ w.canonical 0x0100000000000000 = false ∧
      w.canonical 0xFF00000000000000 = true ∧ w.canonical 0xFEFFFFFFFFFFFFFF = false := by decide +kernel

/-- Only the last element's eight bytes are admitted, and only its mask bit is 1. -/
theorem witness_OnlyUnmaskedElementsAreAccessed :
    let s := withK (demo (bytesAt 56 (List.replicate 8 0#8))) 1 0x80
    (memOps false 1).src = .mem false rax ∧ Enterable .zmm (memOps false 1) s ∧ s.mode = .mode64 ∧
      s.part.faultSuppression = true ∧
      ∀ j, j < formKl .zmm → ((memOps false 1).mask = 0#3 ∨ s.kBit 1 j = true) → ∀ i, i < 8 →
        s.canonical (operandByte .zmm (memOps false 1) false rax s (8 * j + i)) = true ∧
        (s.ordinary? (operandByte .zmm (memOps false 1) false rax s (8 * j + i))).isSome = true :=
  ⟨rfl, entryStop_eq_none_iff.1 (by decide +kernel), rfl, rfl, by decide +kernel⟩

/-- Eight bytes at an odd address and no others. -/
theorem witness_BroadcastAccessesEightBytes :
    let s := withX (demo (bytesAt 3 (List.replicate 8 0#8))) 0 3
    (memOps true).src = .mem true rax ∧ Enterable .zmm (memOps true) s ∧ s.mode = .mode64 ∧ s.acEnabled = false ∧
      ∀ i, i < 8 → s.canonical (operandByte .zmm (memOps true) true rax s i) = true ∧
        (s.ordinary? (operandByte .zmm (memOps true) true rax s i)).isSome = true :=
  ⟨rfl, entryStop_eq_none_iff.1 (by decide +kernel), rfl, rfl, by decide +kernel⟩

/-- No memory at all; mask bits set above KL only. -/
theorem witness_AllMaskedMemoryFormCompletes :
    let s := withK (demo []) 1 0xFC
    (memOps true 1).src = .mem true rax ∧ Enterable .xmm (memOps true 1) s ∧ s.part.faultSuppression = true ∧
      (memOps true 1).mask ≠ 0#3 ∧ ∀ j, j < formKl .xmm → s.kBit 1 j = false :=
  ⟨rfl, entryStop_eq_none_iff.1 (by decide +kernel), rfl, by decide, by decide +kernel⟩

/-! ### Faults and refusals -/

/-- A state for each clause. -/
theorem witness_DisabledStateRaisesInvalidOpcode :
    zeros.textInRange regOps.length = true ∧ regOps.length ≤ 15 ∧
      { zeros with mode := .virtual8086 }.textInRange regOps.length = true ∧
      { zeros with mode := .real }.textInRange regOps.length = true ∧
      (0xC7#64).extractLsb' 5 3 ≠ 7#3 ∧ (0xE5#64).extractLsb' 1 2 ≠ 3#2 ∧ Form.ymm ≠ .zmm := by decide +kernel

def longOps : Operands := ⟨List.replicate 10 .addressSize, 1, .reg 2, 0, false⟩

/-- A state for each condition of the state; and an encoding of 16 bytes, ten of them legacy bytes, with L'L = 11b. -/
theorem witness_OverlongUndefinedIsRefused :
    (let s := { zeros with cr4Osxsave := false };
      s.textInRange longOps.length = true ∧ 15 < longOps.length ∧ s.stateEnabled = false) ∧
    (let s := { zeros with part := { zeros.part with avx512vl := false } };
      s.textInRange longOps.length = true ∧ Form.ymm ≠ .zmm ∧ s.part.avx512vl = false) ∧
    (let ls := List.replicate 10 (0x67#8 : Byte);
      let s := demo (bytesAt 0x1000 (ls ++ [0x62, 0xF2, 0xFD, 0x68, 0x4E, 0xCA]));
      s.text = ls ++ 0x62#8 :: 0xF2#8 :: 0xFD#8 :: 0x68#8 :: 0x4E#8 :: 0xCA#8 :: [] ∧
        (∀ x ∈ ls, precedingByte s.mode x = true) ∧ s.mode = .mode64 ∧ (0xF2#8).extractLsb' 0 4 = 2#4 ∧
        (0xFD#8).getLsbD 7 = true ∧ (0xFD#8).extractLsb' 0 3 = 5#3 ∧ (0x68#8).extractLsb' 5 2 = 3#2 ∧
        ilen ls.length 0xCA 0 = 16 ∧ 16 ≤ ls.length + 6 + ([] : List Byte).length ∧ s.textInRange 16 = true) := by
  decide +kernel

/-- The length of R100 for each kind of ModRM byte: vectors E1, E3, E7, E8, E9 and E11, and SIB without base. -/
theorem test_ilen :
    ilen 0 0xCA 0 = 6 ∧ ilen 0 0x18 0 = 6 ∧ ilen 0 0x6C 0xCB = 8 ∧ ilen 0 0xAC 0xCB = 11 ∧ ilen 0 0x0D 0x10 = 10 ∧
      ilen 0 0x54 0x24 = 8 ∧ ilen 1 0x04 0x25 = 12 := by decide

/-- Sixteen bytes, the least length that is too long. -/
theorem witness_OverlongRaisesGeneralProtection :
    zeros.textInRange longOps.length = true ∧ longOps.length = 16 ∧ zeros.mode = .mode64 ∧
      zeros.stateEnabled = true ∧ zeros.part.avx512f = true ∧ zeros.part.avx512vl = true ∧
      longOps.zeroing = false := by decide +kernel

theorem witness_TaskSwitchedRaisesDeviceNotAvailable :
    let s := { zeros with cr0Ts := true }
    Enterable .zmm regOps { s with cr0Ts := false } ∧ s.cr0Ts = true :=
  ⟨entryStop_eq_none_iff.1 (by decide +kernel), rfl⟩

/-- Operands for each clause. -/
theorem witness_RefusedEncodings :
    let s := { zeros with mode := .mode32 }
    let h : Operands := ⟨[.addressSize], 1, .reg 2, 0, false⟩
    undefinedIn .zmm s = false ∧
      (s.textInRange (ops 1 (.reg 2) 0 true).length = true ∧ (ops 1 (.reg 2) 0 true).mask = 0#3) ∧
      (s.textInRange (ops 8 (.reg 2)).length = true ∧ (ops 8 (.reg 2)).lowRegisters = false) ∧
      (s.textInRange h.length = true ∧ h.lowRegisters = true ∧ h.hasAddressSize = true) := by decide +kernel

/-- Six bytes that end at the last address, one past it, and one that leaves the lower half. -/
theorem witness_PcOutOfRangeIsRefused :
    let n := (Instr.vrsqrt14pd512 regOps).operands.length
    { zeros with pc := 0xFFFFFFFFFFFFFFF9 }.textInRange n = true ∧
      2 ^ 64 ≤ { zeros with pc := 0xFFFFFFFFFFFFFFFA }.pc.toNat + n ∧
      (5 < n ∧ { zeros with pc := 0x7FFFFFFFFFFB }.canonical (0x7FFFFFFFFFFB + Word.ofNat 5) = false) ∧
      { zeros with mode := .mode32, pc := 0xFFFFFFF9 }.textInRange n = true ∧
      2 ^ 32 ≤ { zeros with mode := .mode32, pc := 0xFFFFFFFA }.pc.toNat + n := by decide +kernel

/-- Byte 15 is the first past the lower half; a base register that selects DS, and one that selects SS. -/
theorem witness_NonCanonicalOperandFaults :
    let s := withX (withX zeros 0 0x7FFFFFFFFFF1) 4 0x7FFFFFFFFFF1
    let sp : Addr := .sib 0 4 4 .none
    (Enterable .xmm (memOps false) s ∧ s.mode = .mode64 ∧ 15 ∈ accessedBytes .xmm (memOps false) false s ∧
      s.canonical (operandByte .xmm (memOps false) false rax s 15) = false ∧
      operandSegment (memOps false) rax = .ds) ∧
    (Enterable .xmm (ops 1 (.mem false sp)) s ∧ 15 ∈ accessedBytes .xmm (ops 1 (.mem false sp)) false s ∧
      s.canonical (operandByte .xmm (ops 1 (.mem false sp)) false sp s 15) = false ∧
      operandSegment (ops 1 (.mem false sp)) sp = .ss) :=
  ⟨⟨entryStop_eq_none_iff.1 (by decide +kernel), rfl, by decide +kernel, by decide +kernel, by decide +kernel⟩,
    entryStop_eq_none_iff.1 (by decide +kernel), by decide +kernel, by decide +kernel, by decide +kernel⟩

theorem witness_OperandPastFlatLimitFaults :
    let s := withX (demo32 []) 0 0xFFFFFFF1
    Enterable .xmm (memOps false) s ∧ s.mode = .mode32 ∧ 15 ∈ accessedBytes .xmm (memOps false) false s ∧
      2 ^ 32 ≤ (effectiveAddress .xmm (memOps false) false rax s).toNat + 15 :=
  ⟨entryStop_eq_none_iff.1 (by decide +kernel), rfl, by decide +kernel, by decide +kernel⟩

/-- The first eight bytes are there and the ninth is not. -/
theorem witness_UnadmittedOperandFaults :
    let s := demo (bytesAt 0 (List.replicate 8 0#8))
    Enterable .xmm (memOps false) s ∧
      (∀ k ∈ accessedBytes .xmm (memOps false) false s, segmentViolation .xmm (memOps false) false rax s k = false) ∧
      8 ∈ accessedBytes .xmm (memOps false) false s ∧
      s.present (operandByte .xmm (memOps false) false rax s 8) = false ∧
      ∀ k ∈ accessedBytes .xmm (memOps false) false s, s.present (operandByte .xmm (memOps false) false rax s k) = false →
        (operandByte .xmm (memOps false) false rax s 8).toNat ≤ (operandByte .xmm (memOps false) false rax s k).toNat :=
  ⟨entryStop_eq_none_iff.1 (by decide +kernel), by decide +kernel, by decide +kernel, by decide +kernel,
    by decide +kernel⟩

/-- An operand that wraps, no byte of it admitted: the address reported is 0, not the first byte's (log entry 16). -/
theorem test_unadmitted_wraps :
    (match faultOf (exec (Form.xmm.instr (memOps false)) (withX (demo []) 0 0xFFFFFFFFFFFFFFF8)) with
      | some (.memFault (.notAdmitted p _) _) => some p
      | _ => none) = some 0 := by decide +kernel

theorem witness_MisalignedBroadcastUnderAlignmentCheckIsRefused :
    let s := { withX zeros 0 4 with cr0Am := true, rflags := 0x40002, cpl := 3 }
    Enterable .zmm (memOps true) s ∧ s.acEnabled = true ∧ accessedBytes .zmm (memOps true) true s ≠ [] ∧
      (∀ i ∈ accessedBytes .zmm (memOps true) true s, segmentViolation .zmm (memOps true) true rax s i = false ∧
        s.present (operandByte .zmm (memOps true) true rax s i) = true) ∧
      (operandByte .zmm (memOps true) true rax s 0).toNat % 8 ≠ 0 :=
  ⟨entryStop_eq_none_iff.1 (by decide +kernel), by decide +kernel, by decide +kernel, by decide +kernel,
    by decide +kernel⟩

/-- A device that holds the operand's last byte alone. -/
theorem witness_DeviceOperandIsRefused :
    let s := { zeros with devices := [⟨63, 1⟩] }
    Enterable .zmm (memOps false) s ∧ s.acEnabled = false ∧
      (∀ k ∈ accessedBytes .zmm (memOps false) false s,
        segmentViolation .zmm (memOps false) false rax s k = false ∧
          s.present (operandByte .zmm (memOps false) false rax s k) = true) ∧
      63 ∈ accessedBytes .zmm (memOps false) false s ∧
      s.isDevice (operandByte .zmm (memOps false) false rax s 63) = true :=
  ⟨entryStop_eq_none_iff.1 (by decide +kernel), by decide +kernel, by decide +kernel, by decide +kernel,
    by decide +kernel⟩

theorem witness_FaultsSaveTheInstructionAddress :
    faultOf (step { demo (bytesAt 0x1000 [0x62, 0xF2, 0xFD, 0x48, 0x4E, 0xCA]) with cr0Ts := true }) =
      some (.deviceNotAvailable 0x1000) := by decide +kernel

/-! ### The whole machine -/

def launchedText : State := demo (bytesAt 0x1000 [0x62, 0xF2, 0xFD, 0x48, 0x4E, 0xCA])

theorem step_launchedText : ∃ t, step launchedText = .next t := by
  have h : decode launchedText.mode launchedText.text = .instr (Form.zmm.instr regOps) := by decide +kernel
  have hs : step launchedText = exec (Form.zmm.instr regOps) launchedText := by simp only [step, h]
  rw [hs]
  exact completes ⟨entryStop_eq_none_iff.1 (by decide +kernel), trivial⟩

theorem witness_StepKeepsInvariant : Inv launchedText ∧ ∃ t, step launchedText = .next t :=
  ⟨⟨by decide +kernel, by decide, by decide, by decide⟩, step_launchedText⟩

theorem witness_StepWritesOneVectorRegisterAndPc : ∃ t, step launchedText = .next t := step_launchedText

theorem witness_StepsCompleteOnlyWhenEnabled : ∃ t, step launchedText = .next t := step_launchedText

/-- At FFFF0000H:FFF0H the instruction's bytes are read in real-address mode. -/
theorem witness_AfterResetTheInstructionIsUndefined :
    decode .real (State.text { State.reset with
      mem := bytesAt 0xFFFFFFF0 [0x62, 0xF2, 0xFD, 0x48, 0x4E, 0xCA], devices := [] }) =
        .instr (.vrsqrt14pd512 regOps) ∧ (Instr.vrsqrt14pd512 regOps).operands.length ≤ 15 := by decide +kernel

end Sys2Proof.Tests
end

/-! # Proofs: the state, what a completed step changes, and the reset state

The facts of the family 10_state.md. A completed step is an entered instruction whose next state is `completed`
(`step_eq_next`), so each statement about steps reduces to `completed_same` and to what `Enterable` says of the text. -/

namespace Sys2Proof.Machine

/-! ## The length and the range of the text -/

/-- No instruction is shorter than EVEX, opcode and ModRM (30_encoding.md R100). -/
theorem six_le_length (o : Operands) : 6 ≤ o.length := by
  simp only [Operands.length, Src.lengthAfter]
  omega

/-- In 64-bit mode the text is in range when it ends by the last address and every byte is canonical. -/
theorem State.textInRange_mode64_iff {s : State} {n : Nat} (h : s.mode = .mode64) :
    s.textInRange n = true ↔
      s.pc.toNat + n < 2 ^ 64 ∧ ∀ k < n, s.canonical (s.pc + Word.ofNat k) = true := by
  simp only [State.textInRange, h, Bool.and_eq_true, decide_eq_true_eq, List.all_eq_true, List.mem_range]
  exact and_congr_left' (by omega)

/-- Outside 64-bit mode the text is in range when it ends by the limit of a flat CS (log entry 12). -/
theorem State.textInRange_iff_of_ne_mode64 {s : State} {n : Nat} (h : s.mode ≠ .mode64) :
    s.textInRange n = true ↔ s.pc.toNat + n < 2 ^ 32 := by
  cases hm : s.mode with
  | mode64 => exact absurd hm h
  | real | virtual8086 | mode32 =>
    simp only [State.textInRange, hm, decide_eq_true_eq]
    omega

/-- In every mode, text in range does not wrap at the top of the 64-bit address space. -/
theorem State.pc_add_lt_of_textInRange {s : State} {n : Nat} (h : s.textInRange n = true) :
    s.pc.toNat + n < 2 ^ 64 := by
  by_cases hm : s.mode = .mode64
  · exact ((State.textInRange_mode64_iff hm).1 h).1
  · have := (State.textInRange_iff_of_ne_mode64 hm).1 h
    omega

/-- An advance that does not wrap adds to `pc` as a natural number. -/
theorem State.advance_pc_toNat {s : State} {n : Nat} (h : s.pc.toNat + n < 2 ^ 64) :
    (s.advance n).pc.toNat = s.pc.toNat + n := by
  simp only [State.advance_pc, BitVec.toNat_add, BitVec.toNat_ofNat, Nat.add_mod_mod]
  exact Nat.mod_eq_of_lt h

/-- An entered instruction moves `pc` on by its length without wrapping. -/
theorem Enterable.completed_pc_toNat {f : Form} {o : Operands} {s : State} (h : Enterable f o s) :
    (completed f o s).pc.toNat = s.pc.toNat + o.length :=
  State.advance_pc_toNat (s := s.setV o.dest _) (State.pc_add_lt_of_textInRange h.text)

/-- Text out of range is refused before anything else is looked at (10_state.md R24). -/
theorem exec_eq_pcOutOfRange {i : Instr} {s : State} (h : ¬s.textInRange i.operands.length = true) :
    exec i s = .refused .pcOutOfRange := by
  simp [exec_eq, execVrsqrt14pd, entryStop, h, Stop.outcome]

/-! ## Completion -/

/-- An instruction completes exactly when it can be entered and its source read, and answers `completed`. -/
theorem exec_eq_next_iff {i : Instr} {s t : State} :
    exec i s = .next t ↔
      Enterable i.form i.operands s ∧ SourceReadable i.form i.operands s ∧ t = completed i.form i.operands s := by
  rw [exec_eq, execVrsqrt14pd_eq_next_iff]

/-- A step that answers a next state has completed an instruction it could enter and whose source it could read. -/
theorem step_eq_next {s t : State} (h : step s = .next t) :
    ∃ i, decode s.mode s.text = .instr i ∧ Enterable i.form i.operands s ∧ SourceReadable i.form i.operands s ∧
      t = completed i.form i.operands s := by
  obtain ⟨i, hd, hs⟩ | ⟨n, -, hs⟩ | ⟨r, -, q, hs⟩ := step_cases s
  · exact ⟨i, hd, execVrsqrt14pd_eq_next_iff.1 (hs ▸ h)⟩
  · rw [hs] at h
    cases hstop : s.undefinedEncoding n <;> simp [hstop, Stop.outcome] at h
  · simp [hs] at h

/-- A completed instruction keeps the invariant: beside the frame, EIP stays zero-extended because outside 64-bit mode
the text ends by the limit of CS. -/
theorem Enterable.completed_inv {f : Form} {o : Operands} {s : State} (h : Enterable f o s) (hs : Inv s) :
    Inv (completed f o s) := by
  have same := completed_same f o s
  obtain ⟨hmode, -⟩ := same.control
  refine ⟨same.memory.1 ▸ hs.memory, same.mxcsr ▸ hs.mxcsr, same.opmask ▸ hs.kw, fun hm => ?_⟩
  rw [h.completed_pc_toNat]
  exact (State.textInRange_iff_of_ne_mode64 (hmode ▸ hm)).1 h.text

/-- Settles O56: a completed step is an entered instruction, which keeps the invariant. -/
theorem stepKeepsInvariant : Obligations.StepKeepsInvariant := by
  intro s t hs h
  obtain ⟨i, -, henter, -, rfl⟩ := step_eq_next h
  exact henter.completed_inv hs

/-- Settles O57: the register is the instruction's destination and the distance its length. -/
theorem stepWritesOneVectorRegisterAndPc : Obligations.StepWritesOneVectorRegisterAndPc := by
  intro s t h
  obtain ⟨i, -, henter, -, rfl⟩ := step_eq_next h
  exact ⟨i.operands.dest, i.operands.length, six_le_length i.operands, henter.length, henter.completed_pc_toNat,
    completed_same _ _ _⟩

/-- Settles O29, from the frame of a completed instruction. -/
theorem flagsAreNotAffected : Obligations.FlagsAreNotAffected := by
  intro i s t h
  obtain ⟨-, -, rfl⟩ := exec_eq_next_iff.1 h
  have same := completed_same i.form i.operands s
  exact ⟨congrArg mxcsrFlags same.mxcsr, same.mxcsr, same.rflags⟩

/-- Settles O48: each of the conditions puts the text out of range. -/
theorem pcOutOfRangeIsRefused : Obligations.PcOutOfRangeIsRefused := by
  intro i s
  refine ⟨fun hm hout => exec_eq_pcOutOfRange fun hr => ?_, fun hm hout => exec_eq_pcOutOfRange fun hr => ?_⟩
  · obtain ⟨hend, hcanon⟩ := (State.textInRange_mode64_iff hm).1 hr
    obtain hpast | ⟨k, hk, hnc⟩ := hout
    · omega
    · simp [hcanon k hk] at hnc
  · have := (State.textInRange_iff_of_ne_mode64 hm).1 hr
    omega

/-! ## MXCSR enters through DAZ alone -/

/-- Which address is reported as not admitted depends on memory and devices alone. -/
theorem State.lowestUnadmitted_congr {s t : State} (hmem : t.mem = s.mem) (hdev : t.devices = s.devices)
    (l : List Word) : t.lowestUnadmitted l = s.lowestUnadmitted l := by
  induction l with
  | nil => rfl
  | cons a l ih =>
    have hpresent : t.present a = s.present a := by simp only [State.present, State.isDevice, hmem, hdev]
    rw [State.lowestUnadmitted, State.lowestUnadmitted, hpresent, ih]

/-- Whether an instruction is entered does not depend on MXCSR. -/
theorem entryStop_withMxcsr (f : Form) (o : Operands) (s : State) (m : BitVec 32) :
    entryStop f o { s with mxcsr := m } = entryStop f o s := rfl

/-- Whether a memory operand is read does not depend on MXCSR. -/
theorem memoryStop_withMxcsr (f : Form) (o : Operands) (bcast : Bool) (a : Addr) (s : State) (m : BitVec 32) :
    memoryStop f o bcast a { s with mxcsr := m } = memoryStop f o bcast a s := by
  have hlow := State.lowestUnadmitted_congr (s := s) (t := { s with mxcsr := m }) rfl rfl
  simp only [memoryStop, hlow]
  rfl

/-- Whether the source is read does not depend on MXCSR. -/
theorem sourceStop_withMxcsr (f : Form) (o : Operands) (s : State) (m : BitVec 32) :
    sourceStop f o { s with mxcsr := m } = sourceStop f o s := by
  unfold sourceStop
  cases o.src with
  | reg r => rfl
  | mem bcast a => exact memoryStop_withMxcsr f o bcast a s m

/-- With the same DAZ every element of the result is the same. -/
theorem resultElem_withMxcsr (f : Form) (o : Operands) {s : State} {m : BitVec 32}
    (h : mxcsrDaz m = mxcsrDaz s.mxcsr) : resultElem f o { s with mxcsr := m } = resultElem f o s := by
  funext j
  have hsrc : sourceElem f o { s with mxcsr := m } j = sourceElem f o s j := rfl
  simp only [resultElem, h, hsrc]
  rfl

/-- With the same DAZ the completed state is the same but for MXCSR. -/
theorem completed_withMxcsr (f : Form) (o : Operands) {s : State} {m : BitVec 32}
    (h : mxcsrDaz m = mxcsrDaz s.mxcsr) :
    completed f o { s with mxcsr := m } = { completed f o s with mxcsr := m } := by
  rw [completed, resultElem_withMxcsr f o h]
  rfl

/-- A change of the next state leaves the outcome of a stop as it is. -/
@[simp] theorem mapNext_outcome (g : State → State) (stop : Stop) : mapNext g stop.outcome = stop.outcome := by
  cases stop <;> rfl

/-- Settles O30: the stops do not read MXCSR, and the result reads its DAZ bit alone. -/
theorem onlyDazOfMxcsrMatters : Obligations.OnlyDazOfMxcsrMatters := by
  intro i s m hdaz
  simp only [exec_eq, execVrsqrt14pd, entryStop_withMxcsr, sourceStop_withMxcsr, completed_withMxcsr _ _ hdaz]
  cases entryStop i.form i.operands s with
  | some stop => simp
  | none =>
    cases sourceStop i.form i.operands s with
    | some stop => simp
    | none => rfl

/-! ## The reset state -/

/-- Settles O55, on the values of the reset state. -/
theorem resetMeetsInvariant : Obligations.ResetMeetsInvariant where
  memory := State.reset_mem_wf
  mxcsr := by decide
  kw := by decide
  pc := fun _ => by decide

/-- Every general register but RDX, which the spec gives no number for (log entry 5), is 0 after reset. -/
theorem State.reset_getX {r : GprNum} (h : r ≠ 2#4) : State.reset.getX r = 0#64 := by
  have hr : 2 ≠ r.toNat := fun e => h (BitVec.eq_of_toNat_eq e.symm)
  simp [State.getX, State.reset, hr]

/-- Every vector register is 0 after reset. -/
theorem State.reset_getV (r : VecNum) : State.reset.getV r = 0 := by
  simp [State.getV, State.reset]

/-- Every bit of the opmask registers is 0 after reset. -/
theorem State.reset_kBit (r : MaskNum) (j : Nat) : State.reset.kBit r j = false := by
  simp [State.kBit, Opmasks.bit, State.reset]

/-- Settles O59: the registers by their lemmas, the rest by the definition of the reset state. -/
theorem resetValues : Obligations.ResetValues :=
  ⟨State.reset_getX (by decide), fun _ => State.reset_getX, rfl, rfl, rfl, rfl, State.reset_getV, State.reset_kBit,
    rfl, rfl, rfl, rfl, rfl⟩

end Sys2Proof.Machine

/-! # Proofs: memory operands

The facts of the family 20_memory.md: where an operand's bytes lie, the elements read from them, which of them are
accessed, and when they can be read or why not. Each statement about `exec` goes through `exec_instr_completes`, where
the source can be read, or `exec_eq_outcome_of_memoryStop`, where it cannot. -/

namespace Sys2Proof.Machine

/-! ## The segment of an operand -/

/-- A 67H byte is no override. -/
@[simp] theorem lastOverride_addressSize_cons (ps : List LegacyPrefix) :
    lastOverride (.addressSize :: ps) = lastOverride ps := by
  cases h : lastOverride ps <;> simp [lastOverride, h]

/-- An override counts where no later one follows. -/
@[simp] theorem lastOverride_segment_cons (g : Seg) (ps : List LegacyPrefix) :
    lastOverride (.segment g :: ps) = some ((lastOverride ps).getD g) := by
  cases h : lastOverride ps <;> simp [lastOverride, h]

/-- 67H bytes alone override nothing. -/
@[simp] theorem lastOverride_replicate_addressSize (n : Nat) :
    lastOverride (List.replicate n .addressSize) = none := by
  induction n with
  | zero => rfl
  | succ n ih => rw [List.replicate_succ, lastOverride_addressSize_cons, ih]

/-- An override in the later bytes decides, whatever stands before them. -/
theorem lastOverride_append {ps : List LegacyPrefix} {g : Seg} (h : lastOverride ps = some g)
    (ls : List LegacyPrefix) : lastOverride (ls ++ ps) = some g := by
  induction ls with
  | nil => exact h
  | cons l ls ih => cases l <;> simp [ih]

/-- Settles O38: the override before the closing 67H bytes is the last; 67H bytes alone leave the form's own segment. -/
theorem segmentSelection : Obligations.SegmentSelection := by
  refine ⟨fun o a ls g n h => ?_, fun o n h => ?_⟩
  · have hlast : lastOverride o.legacy = some g := h ▸ lastOverride_append (by simp) ls
    simp [operandSegment, hlast]
  · have hdefault (a : Addr) : operandSegment o a = defaultSegment a := by simp [operandSegment, h]
    exact ⟨fun _ _ _ => hdefault _, fun _ _ _ _ => hdefault _, fun _ _ _ _ => hdefault _, fun _ _ _ => hdefault _⟩

/-! ## The address of an operand -/

/-- The integer sum of a form with a base register; N is the factor of a compressed displacement (30_encoding.md
R96). -/
theorem addressInt_base (f : Form) (o : Operands) (bcast : Bool) (g : GprNum) (d : Disp) (x : Bool) (s : State) :
    addressInt f o bcast (.base g d x) s = (s.getX g).toNat + dispInt (disp8Factor f bcast) d := by
  cases bcast <;> cases f <;> rfl

/-- The integer sum of a form with base and index registers. -/
theorem addressInt_sib (f : Form) (o : Operands) (bcast : Bool) (sc : BitVec 2) (i g : GprNum) (d : Disp) (s : State) :
    addressInt f o bcast (.sib sc i g d) s =
      (s.getX g).toNat + indexNat s sc i + dispInt (disp8Factor f bcast) d := by
  cases bcast <;> cases f <;> rfl

/-- A word is itself modulo 2^64. -/
theorem ofInt_toNat (w : Word) : BitVec.ofInt 64 (w.toNat : ℤ) = w := by
  rw [BitVec.ofInt_natCast, BitVec.ofNat_toNat, BitVec.setWidth_eq]

/-- The displacement's 64-bit value is its signed value modulo 2^64. -/
theorem dispValue_eq_ofInt (n : Nat) (d : Disp) : dispValue n d = BitVec.ofInt 64 (dispInt n d) := by
  cases d with
  | none => rfl
  | disp8 d =>
    rw [dispValue, dispInt, BitVec.ofInt_mul, BitVec.ofInt_natCast]
    rfl
  | disp32 d => rfl

/-- A shifted index is the index times its scale modulo 2^64. -/
theorem indexTerm_eq_ofInt (s : State) (scale : BitVec 2) (index : GprNum) :
    indexTerm s scale index = BitVec.ofInt 64 (indexNat s scale index) := by
  unfold indexTerm indexNat
  split_ifs with h
  · rfl
  · rw [BitVec.ofInt_natCast, ← BitVec.toNat_inj, BitVec.toNat_shiftLeft, BitVec.toNat_ofNat, Nat.shiftLeft_eq]

/-- The 64-bit sum of the address is the integer sum modulo 2^64. -/
theorem addressSum_eq_ofInt (f : Form) (o : Operands) (bcast : Bool) (a : Addr) (s : State) :
    addressSum f o bcast a s = BitVec.ofInt 64 (addressInt f o bcast a s) := by
  cases a with
  | base g d x => simp only [addressSum, addressInt_base, BitVec.ofInt_add, ofInt_toNat, dispValue_eq_ofInt]
  | sib sc i g d =>
    simp only [addressSum, addressInt_sib, BitVec.ofInt_add, ofInt_toNat, dispValue_eq_ofInt, indexTerm_eq_ofInt]
  | sibNoBase sc i d b =>
    simp only [addressSum, addressInt, BitVec.ofInt_add, indexTerm_eq_ofInt]
    rfl
  | direct d x b =>
    simp only [addressSum, addressInt, BitVec.ofInt_add]
    split_ifs
    · rw [BitVec.ofInt_add, ofInt_toNat, BitVec.ofInt_natCast]
      rfl
    · rfl

/-- EA is the integer sum modulo the address size (20_memory.md R58). -/
theorem effectiveAddress_toNat (f : Form) (o : Operands) (bcast : Bool) (a : Addr) (s : State) :
    ((effectiveAddress f o bcast a s).toNat : ℤ) =
      addressInt f o bcast a s % (if address32 o s = true then 2 ^ 32 else 2 ^ 64) := by
  unfold effectiveAddress
  rw [addressSum_eq_ofInt]
  generalize addressInt f o bcast a s = z
  split_ifs with h
  · simp only [BitVec.toNat_setWidth, BitVec.toNat_ofInt]
    omega
  · simp only [BitVec.toNat_ofInt]
    omega

/-- In 64-bit mode the byte's address is the sum modulo 2^64. -/
theorem operandByte_toNat_mode64 {s : State} (h : s.mode = .mode64) (f : Form) (o : Operands) (bcast : Bool)
    (a : Addr) (i : Nat) :
    (operandByte f o bcast a s i).toNat =
      ((segmentBase s (operandSegment o a)).toNat + (effectiveAddress f o bcast a s).toNat + i) % 2 ^ 64 := by
  simp only [operandByte, h, if_true, BitVec.toNat_add, BitVec.toNat_ofNat]
  omega

/-- In 32-bit mode the byte's address is the sum modulo 2^32. -/
theorem operandByte_toNat_mode32 {s : State} (h : s.mode = .mode32) (f : Form) (o : Operands) (bcast : Bool)
    (a : Addr) (i : Nat) :
    (operandByte f o bcast a s i).toNat =
      ((segmentBase s (operandSegment o a)).toNat + (effectiveAddress f o bcast a s).toNat + i) % 2 ^ 32 := by
  simp only [operandByte, h, reduceCtorEq, if_false, BitVec.toNat_setWidth, BitVec.toNat_add, BitVec.toNat_ofNat]
  omega

/-- Settles O36: EA is the integer sum modulo the address size, and only FS and GS have a base. -/
theorem linearAddressIn64BitMode : Obligations.LinearAddressIn64BitMode := by
  intro f o bcast a s i h
  have hsize : address32 o s = o.hasAddressSize := by simp [address32, h]
  rw [operandByte_toNat_mode64 h, ← hsize, ← effectiveAddress_toNat]
  cases operandSegment o a <;> simp [segmentBase, h]

/-- Settles O37: cutting the whole sum to 32 bits is cutting EA. -/
theorem linearAddressIn32BitMode : Obligations.LinearAddressIn32BitMode := by
  intro f o bcast a s i h
  have hea := effectiveAddress_toNat f o bcast a s
  have hsize : address32 o s = true := by simp [address32, h]
  rw [if_pos hsize] at hea
  rw [operandByte_toNat_mode32 h]
  cases operandSegment o a <;> simp only [segmentBase, h, reduceCtorEq, if_false] <;> omega

/-! ## Canonical addresses -/

/-- The upper bits of an address are its quotient by 2^k. -/
theorem toNat_extractLsb'_upper (a : Word) {k n : Nat} (h : k + n = 64) :
    (a.extractLsb' k n).toNat = a.toNat / 2 ^ k := by
  rw [BitVec.extractLsb'_toNat, Nat.shiftRight_eq_div_pow]
  refine Nat.mod_eq_of_lt (Nat.div_lt_of_lt_mul ?_)
  rw [← pow_add, h]
  exact a.isLt

/-- The upper bits are all 0 in the lower half. -/
theorem extractLsb'_upper_eq_zero_iff (a : Word) {k n : Nat} (h : k + n = 64) :
    a.extractLsb' k n = 0#n ↔ a.toNat < 2 ^ k := by
  rw [← BitVec.toNat_inj, toNat_extractLsb'_upper a h, BitVec.toNat_zero, Nat.div_eq_zero_iff_lt (by positivity)]

/-- The upper bits are all 1 in the upper half. -/
theorem extractLsb'_upper_eq_allOnes_iff (a : Word) {k n : Nat} (h : k + n = 64) :
    a.extractLsb' k n = BitVec.allOnes n ↔ 2 ^ 64 - 2 ^ k ≤ a.toNat := by
  have hlt := (a.extractLsb' k n).isLt
  rw [← BitVec.toNat_inj, BitVec.toNat_allOnes]
  rw [toNat_extractLsb'_upper a h] at hlt ⊢
  have hsplit : 2 ^ 64 - 2 ^ k = (2 ^ n - 1) * 2 ^ k := by rw [Nat.sub_mul, ← pow_add, add_comm n, h, one_mul]
  rw [hsplit, ← Nat.le_div_iff_mul_le (by positivity)]
  omega

/-- Settles O39: each half is where the upper bits are all 0 or all 1. -/
theorem canonicalAddresses : Obligations.CanonicalAddresses := by
  intro s a
  refine ⟨fun h => ?_, fun h => ?_⟩ <;> simp only [State.canonical, h, Bool.or_eq_true, beq_iff_eq]
  · rw [extractLsb'_upper_eq_zero_iff a rfl, extractLsb'_upper_eq_allOnes_iff a rfl]
  · rw [extractLsb'_upper_eq_zero_iff a rfl, extractLsb'_upper_eq_allOnes_iff a rfl]

/-! ## The elements of an operand -/

/-- The byte read at an admitted address is the one memory holds. -/
theorem State.byteAt_of_byte? {s : State} {a : Word} {b : Byte} (h : s.mem.byte? a.toNat = some b) :
    s.byteAt a = b := by
  simp [State.byteAt, h]

/-- A read of eight bytes is little-endian (20_memory.md R53): the byte at the lowest address is least significant. -/
theorem State.extractLsb'_read64 (s : State) (addr : Nat → Word) {i : Nat} (h : i < 8) :
    (s.read64 addr).extractLsb' (8 * i) 8 = s.byteAt (addr i) := by
  unfold State.read64
  -- The width as the appends give it: the library's lemmas about an append do not see it in 64.
  change BitVec.extractLsb' (n := 8 + 8 + 8 + 8 + 8 + 8 + 8 + 8) _ _ _ = _
  interval_cases i <;>
    simp only [Nat.reduceMul, Nat.reduceLeDiff, Nat.reduceSub, BitVec.extractLsb'_append_eq_of_le,
      BitVec.extractLsb'_append_eq_right, BitVec.extractLsb'_eq_self]

/-- Settles O24: the element is the little-endian read of its eight bytes. -/
theorem fullWidthElementIsLittleEndian : Obligations.FullWidthElementIsLittleEndian := by
  intro f o a s j b hsrc hmem i hi
  simp only [sourceElem, hsrc, Bool.false_eq_true, if_false, State.extractLsb'_read64 s _ hi]
  exact State.byteAt_of_byte? (hmem i hi)

/-- Settles O25: every element is the little-endian read of the same eight bytes. -/
theorem broadcastElementIsTheSameForAll : Obligations.BroadcastElementIsTheSameForAll := by
  intro f o a s b hsrc hmem j i hi
  simp only [sourceElem, hsrc, if_true, State.extractLsb'_read64 s _ hi]
  exact State.byteAt_of_byte? (hmem i hi)

/-! ## The accessed bytes -/

/-- The writemask selects an element where none is named or the bit is 1 (40_vrsqrt14pd.md R135). -/
theorem maskBit_eq_true_iff {o : Operands} {s : State} {j : Nat} :
    maskBit o s j = true ↔ o.mask = 0#3 ∨ s.kBit o.mask j = true := by
  simp [maskBit]

/-- Of a full-width operand the bytes of the selected elements are accessed, or all without fault suppression. -/
theorem mem_accessedBytes_fullWidth_iff {f : Form} {o : Operands} {s : State} {i : Nat} :
    i ∈ accessedBytes f o false s ↔
      i < 8 * formKl f ∧ (s.part.faultSuppression = false ∨ maskBit o s (i / 8) = true) := by
  simp [accessedBytes]

/-- Of a broadcast operand the eight bytes are accessed where an element is selected or suppression is off. -/
theorem mem_accessedBytes_bcast_iff {f : Form} {o : Operands} {s : State} {i : Nat} :
    i ∈ accessedBytes f o true s ↔
      i < 8 ∧ (s.part.faultSuppression = false ∨ ∃ j < formKl f, maskBit o s j = true) := by
  simp only [accessedBytes, if_true]
  split_ifs with h
  · simpa using fun _ => h
  · simpa using fun _ => h

/-- Under fault suppression nothing is accessed where no element is selected. -/
theorem accessedBytes_eq_nil {f : Form} {o : Operands} {s : State} (bcast : Bool)
    (hs : s.part.faultSuppression = true) (h : ∀ j < formKl f, maskBit o s j = false) :
    accessedBytes f o bcast s = [] := by
  rw [List.eq_nil_iff_forall_not_mem]
  intro i hi
  cases bcast with
  | false =>
    obtain ⟨hlt, hsel⟩ := mem_accessedBytes_fullWidth_iff.1 hi
    simp [hs, h (i / 8) (by omega)] at hsel
  | true =>
    obtain ⟨-, hoff | ⟨j, hj, hsel⟩⟩ := mem_accessedBytes_bcast_iff.1 hi
    · simp [hs] at hoff
    · simp [h j hj] at hsel

/-! ## Memory operands that can be read -/

/-- A byte of ordinary memory is admitted and in no device region. -/
theorem State.ordinary?_isSome_iff {s : State} {a : Word} :
    (s.ordinary? a).isSome = true ↔ s.isDevice a = false ∧ (s.mem.byte? a.toNat).isSome = true := by
  cases h : s.isDevice a <;> simp [State.ordinary?, h]

/-- In 64-bit mode a byte violates its segment where it is not canonical. -/
theorem segmentViolation_mode64 {s : State} (h : s.mode = .mode64) (f : Form) (o : Operands) (bcast : Bool) (a : Addr)
    (i : Nat) : segmentViolation f o bcast a s i = !s.canonical (operandByte f o bcast a s i) := by
  rw [segmentViolation, if_pos h]

/-- In 64-bit mode an operand can be read where its accessed bytes are canonical and ordinary, without a broadcast under
alignment checking. -/
theorem readable_mode64 {f : Form} {o : Operands} {bcast : Bool} {a : Addr} {s : State} (h : s.mode = .mode64)
    (hac : bcast = true → s.acEnabled = false)
    (hbytes : ∀ i ∈ accessedBytes f o bcast s, s.canonical (operandByte f o bcast a s i) = true ∧
      (s.ordinary? (operandByte f o bcast a s i)).isSome = true) : Readable f o bcast a s where
  segment i hi := by simp [segmentViolation_mode64 h, (hbytes i hi).1]
  admitted i hi := (State.ordinary?_isSome_iff.1 (hbytes i hi).2).2
  ordinary i hi := (State.ordinary?_isSome_iff.1 (hbytes i hi).2).1
  aligned hb hon _ := by simp [hac hb] at hon

/-- An operand of which nothing is accessed can be read, whatever memory holds. -/
theorem readable_of_accessedBytes_eq_nil {f : Form} {o : Operands} {bcast : Bool} {s : State} (a : Addr)
    (h : accessedBytes f o bcast s = []) : Readable f o bcast a s := by
  constructor <;> simp [h]

/-- A memory source can be read as its operand can. -/
theorem sourceReadable_mem_iff {f : Form} {o : Operands} {bcast : Bool} {a : Addr} {s : State}
    (h : o.src = .mem bcast a) : SourceReadable f o s ↔ Readable f o bcast a s := by
  rw [SourceReadable, h]

/-- The instruction of a form has that form. -/
@[simp] theorem Form.instr_form (o : Operands) (f : Form) : (f.instr o).form = f := by cases f <;> rfl

/-- The instruction of a form has the operands it was given. -/
@[simp] theorem Form.instr_operands (o : Operands) (f : Form) : (f.instr o).operands = o := by cases f <;> rfl

/-- An instruction that can be entered and whose memory operand can be read completes. -/
theorem exec_instr_completes {f : Form} {o : Operands} {bcast : Bool} {a : Addr} {s : State}
    (hsrc : o.src = .mem bcast a) (henter : Enterable f o s) (hread : Readable f o bcast a s) :
    exec (f.instr o) s = .next (completed f o s) := by
  simpa [exec_eq_next_iff, henter] using (sourceReadable_mem_iff hsrc).2 hread

/-- Settles O40: the accessed bytes are those of the selected elements, and no alignment is asked of them. -/
theorem onlyUnmaskedElementsAreAccessed : Obligations.OnlyUnmaskedElementsAreAccessed := by
  intro f o a s hsrc henter hm hs hbytes
  refine ⟨_, exec_instr_completes hsrc henter (readable_mode64 hm (by simp) fun i hi => ?_)⟩
  obtain ⟨hlt, hsel⟩ := mem_accessedBytes_fullWidth_iff.1 hi
  rw [hs, maskBit_eq_true_iff] at hsel
  have hbyte := hbytes (i / 8) (by omega) (by simpa using hsel) (i % 8) (by omega)
  rwa [Nat.div_add_mod] at hbyte

/-- Settles O41: no byte but the eight is accessed. -/
theorem broadcastAccessesEightBytes : Obligations.BroadcastAccessesEightBytes := by
  intro f o a s hsrc henter hm hac hbytes
  exact ⟨_, exec_instr_completes hsrc henter (readable_mode64 hm (fun _ => hac) fun i hi =>
    hbytes i (mem_accessedBytes_bcast_iff.1 hi).1)⟩

/-- No form has more than eight elements. -/
theorem formKl_le (f : Form) : formKl f ≤ 8 := by cases f <;> decide

/-- Settles O42: nothing is accessed, and no element is computed. -/
theorem allMaskedMemoryFormCompletes : Obligations.AllMaskedMemoryFormCompletes := by
  intro f o bcast a s hsrc henter hs hk hbits
  have hmask (j : Nat) (hj : j < formKl f) : maskBit o s j = false := by simp [maskBit, hk, hbits j hj]
  have hnil := accessedBytes_eq_nil bcast hs hmask
  refine ⟨_, exec_instr_completes hsrc henter (readable_of_accessedBytes_eq_nil a hnil), fun j hj => ?_⟩
  rw [completed_elem f o s (hj.trans_le (formKl_le f))]
  simp [resultElem, hj, hmask j hj]

/-! ## Fault suppression -/

/-- `s` on a part that suppresses the memory faults of masked-off elements (20_memory.md R61). -/
def State.suppressing (s : State) : State := { s with part := { s.part with faultSuppression := true } }

/-- Entry does not ask about fault suppression. -/
theorem Enterable.suppressing {f : Form} {o : Operands} {s : State} (h : Enterable f o s) :
    Enterable f o s.suppressing :=
  ⟨h.mode, h.enabled, h.avx512f, h.avx512vl, h.ts, h.text, h.length, h.masking, h.fits⟩

/-- Suppression adds no access. -/
theorem mem_accessedBytes_of_suppressing {f : Form} {o : Operands} {bcast : Bool} {s : State}
    (h : s.part.faultSuppression = false) {i : Nat} (hi : i ∈ accessedBytes f o bcast s.suppressing) :
    i ∈ accessedBytes f o bcast s := by
  cases bcast with
  | false => exact mem_accessedBytes_fullWidth_iff.2 ⟨(mem_accessedBytes_fullWidth_iff.1 hi).1, .inl h⟩
  | true => exact mem_accessedBytes_bcast_iff.2 ⟨(mem_accessedBytes_bcast_iff.1 hi).1, .inl h⟩

/-- What can be read without suppression can be read with it. -/
theorem SourceReadable.suppressing {f : Form} {o : Operands} {s : State} (hs : s.part.faultSuppression = false)
    (h : SourceReadable f o s) : SourceReadable f o s.suppressing := by
  cases hsrc : o.src with
  | reg r => simp [SourceReadable, hsrc]
  | mem bcast a =>
    have hread := (sourceReadable_mem_iff hsrc).1 h
    have hsub {i : Nat} := mem_accessedBytes_of_suppressing (f := f) (o := o) (bcast := bcast) hs (i := i)
    refine (sourceReadable_mem_iff hsrc).2 ⟨fun i hi => hread.segment i (hsub hi),
      fun i hi => hread.admitted i (hsub hi), fun i hi => hread.ordinary i (hsub hi),
      fun hb hac hne => hread.aligned hb hac ?_⟩
    obtain ⟨i, hi⟩ := List.exists_mem_of_ne_nil _ hne
    exact List.ne_nil_of_mem (hsub hi)

/-- The next state does not depend on suppression but for that constant. -/
theorem completed_suppressing (f : Form) (o : Operands) (s : State) :
    completed f o s.suppressing = (completed f o s).suppressing := rfl

/-- Settles O35: with suppression the instruction is entered and its source read as without. -/
theorem suppressionDoesNotChangeResults : Obligations.SuppressionDoesNotChangeResults := by
  intro i s t hs h
  obtain ⟨henter, hread, rfl⟩ := exec_eq_next_iff.1 h
  exact exec_eq_next_iff.2 ⟨henter.suppressing, hread.suppressing hs, (completed_suppressing _ _ s).symm⟩

/-! ## Memory operands that cannot be read -/

/-- An instruction that can be entered ends with the stop of its memory operand. -/
theorem exec_eq_outcome_of_memoryStop {f : Form} {o : Operands} {bcast : Bool} {a : Addr} {s : State} {stop : Stop}
    (hsrc : o.src = .mem bcast a) (henter : Enterable f o s) (hstop : memoryStop f o bcast a s = some stop) :
    exec (f.instr o) s = stop.outcome := by
  have hsource : sourceStop f o s = some stop := by rw [sourceStop, hsrc]; exact hstop
  simp [exec_eq, execVrsqrt14pd, entryStop_eq_none_iff.2 henter, hsource]

/-- An accessed byte outside its segment raises #SS(0) or #GP(0) before anything else of memory is looked at. -/
theorem memoryStop_of_segmentViolation {f : Form} {o : Operands} {bcast : Bool} {a : Addr} {s : State} {i : Nat}
    (hi : i ∈ accessedBytes f o bcast s) (h : segmentViolation f o bcast a s i = true) :
    memoryStop f o bcast a s =
      some (s.raise (.memFault (if operandSegment o a = .ss then .stackSegment else .generalProtection))) :=
  if_pos (List.any_eq_true.2 ⟨i, hi, h⟩)

/-- Where every accessed byte is inside its segment and admitted, the alignment check and then the devices decide. -/
theorem memoryStop_of_present {f : Form} {o : Operands} {bcast : Bool} {a : Addr} {s : State}
    (h : ∀ i ∈ accessedBytes f o bcast s, segmentViolation f o bcast a s i = false ∧
      s.present (operandByte f o bcast a s i) = true) :
    memoryStop f o bcast a s =
      if bcast = true ∧ s.acEnabled = true ∧ accessedBytes f o bcast s ≠ [] ∧
        (operandByte f o bcast a s 0).extractLsb' 0 3 ≠ 0#3 then some (.refusal .alignmentCheckOpen)
      else if ∃ i ∈ accessedBytes f o bcast s, s.isDevice (operandByte f o bcast a s i) = true then
        some (.refusal .deviceMemory)
      else none := by
  have hseg : (accessedBytes f o bcast s).any (segmentViolation f o bcast a s) = false :=
    List.any_eq_false.2 fun i hi => by simp [(h i hi).1]
  have hadmit : s.lowestUnadmitted ((accessedBytes f o bcast s).map (operandByte f o bcast a s)) = none :=
    State.lowestUnadmitted_eq_none_iff.2 (List.forall_mem_map.2 fun i hi => (h i hi).2)
  simp [memoryStop, hseg, hadmit, and_assoc]

/-- Settles O49: in 64-bit mode the byte violates its segment, and the fault is the segment's. -/
theorem nonCanonicalOperandFaults : Obligations.NonCanonicalOperandFaults := by
  intro f o bcast a s i hsrc henter hm hi hnc
  have hviolates : segmentViolation f o bcast a s i = true := by simp [segmentViolation_mode64 hm, hnc]
  refine ⟨_, exec_eq_outcome_of_memoryStop hsrc henter (memoryStop_of_segmentViolation hi hviolates), rfl, ?_⟩
  split_ifs <;> exact ⟨rfl, rfl⟩

/-- Settles O52: the alignment check comes before the devices. -/
theorem misalignedBroadcastUnderAlignmentCheckIsRefused :
    Obligations.MisalignedBroadcastUnderAlignmentCheckIsRefused := by
  intro f o a s hsrc henter hac hne hbytes hmis
  have hlow : (operandByte f o true a s 0).extractLsb' 0 3 ≠ 0#3 := fun h => hmis (by
    simpa [BitVec.extractLsb'_toNat] using congrArg BitVec.toNat h)
  refine exec_eq_outcome_of_memoryStop hsrc henter (stop := .refusal .alignmentCheckOpen) ?_
  rw [memoryStop_of_present hbytes, if_pos ⟨rfl, hac, hne, hlow⟩]

/-- Settles O53: with alignment checking off the devices decide. -/
theorem deviceOperandIsRefused : Obligations.DeviceOperandIsRefused := by
  intro f o bcast a s i hsrc henter hac hbytes hi hdev
  refine exec_eq_outcome_of_memoryStop hsrc henter (stop := .refusal .deviceMemory) ?_
  rw [memoryStop_of_present hbytes, if_neg (by simp [hac]), if_pos ⟨i, hi, hdev⟩]

end Sys2Proof.Machine

/-! # Proofs: the encoding

The facts of the family 30_encoding.md. Each reader of the decoder is matched with the field or the bytes of the encoder
it reads (`eq_p0_iff` to `eq_modrm_iff`, `readSrc_eq_some_iff`, `scanLegacy_append`); together they give
`decode_eq_instr_iff`, the round trip in both directions, and the cases of bytes that are no instruction. -/

namespace Sys2Proof

/-! ## Fields of a byte -/

/-- A word is two parts joined exactly when the parts are its fields. -/
theorem eq_append_iff (v w : Nat) {x : BitVec (v + w)} {a : BitVec v} {b : BitVec w} :
    x = a ++ b ↔ x.extractLsb' w v = a ∧ x.extractLsb' 0 w = b := by
  constructor
  · rintro rfl
    exact ⟨BitVec.extractLsb'_append_eq_left, BitVec.extractLsb'_append_eq_right⟩
  · rintro ⟨rfl, rfl⟩
    simp [BitVec.extractLsb'_append_extractLsb'_eq_extractLsb']

/-- A field of a field. -/
theorem extractLsb'_extractLsb' {n : Nat} (x : BitVec n) {i j k l : Nat} (h : k + l ≤ j) :
    (x.extractLsb' i j).extractLsb' k l = x.extractLsb' (i + k) l := by
  ext m hm
  simp [Nat.add_assoc, show k + m < j by omega]

/-- A field of one bit is that bit. -/
theorem extractLsb'_one_eq_ofBool_iff {n : Nat} {x : BitVec n} {k : Nat} {c : Bool} :
    x.extractLsb' k 1 = BitVec.ofBool c ↔ x.getLsbD k = c := by
  simp [BitVec.eq_of_getLsbD_eq_iff]

/-- A field of one bit holds an inverted bit. -/
theorem extractLsb'_one_eq_ofBool_not_iff {n : Nat} {x : BitVec n} {k : Nat} {c : Bool} :
    x.extractLsb' k 1 = BitVec.ofBool (!c) ↔ c = !x.getLsbD k := by
  rw [extractLsb'_one_eq_ofBool_iff, Bool.eq_not, Bool.eq_not, ne_comm]

/-- A field of one bit is 1 when that bit is. -/
theorem extractLsb'_one_eq_one_iff {n : Nat} {x : BitVec n} {k : Nat} : x.extractLsb' k 1 = 1#1 ↔ x.getLsbD k = true :=
  extractLsb'_one_eq_ofBool_iff (c := true)

/-- The fields of P0 (30_encoding.md R83): the extension bits are inverted. -/
theorem eq_p0_iff {o : Operands} {b : Byte} :
    b = o.p0 ↔ o.dest.getLsbD 3 = !b.getLsbD 7 ∧ o.src.extX = !b.getLsbD 6 ∧ o.src.extB = !b.getLsbD 5 ∧
      o.dest.getLsbD 4 = !b.getLsbD 4 ∧ b.extractLsb' 0 4 = 2#4 := by
  rw [Operands.p0, eq_append_iff 4 4, eq_append_iff 3 1, eq_append_iff 2 1, eq_append_iff 1 1]
  simp [extractLsb'_extractLsb', and_assoc, extractLsb'_one_eq_ofBool_not_iff]

/-- The fields of the only P1 (30_encoding.md R84): W = 1, vvvv = 1111b, 1, pp = 01b. -/
theorem eq_p1_iff {b : Byte} :
    b = 0xFD#8 ↔ b.getLsbD 7 = true ∧ b.extractLsb' 3 4 = 15#4 ∧ b.extractLsb' 0 3 = 5#3 := by
  rw [show 0xFD#8 = 1#1 ++ 15#4 ++ 5#3 from rfl, eq_append_iff 5 3, eq_append_iff 1 4]
  simp [extractLsb'_extractLsb', and_assoc, extractLsb'_one_eq_one_iff]

/-- The fields of P2 (30_encoding.md R85). -/
theorem eq_p2_iff {f : Form} {o : Operands} {b : Byte} :
    b = o.p2 f ↔ b.getLsbD 7 = o.zeroing ∧ b.extractLsb' 5 2 = f.lengthField ∧ b.getLsbD 4 = o.src.bcastBit ∧
      b.getLsbD 3 = true ∧ b.extractLsb' 0 3 = o.mask := by
  rw [Operands.p2, eq_append_iff 5 3, eq_append_iff 4 1, eq_append_iff 3 1, eq_append_iff 1 2]
  simp [extractLsb'_extractLsb', and_assoc, extractLsb'_one_eq_ofBool_iff, extractLsb'_one_eq_one_iff]

/-- The fields of ModRM (30_encoding.md R88). -/
theorem eq_modrm_iff {o : Operands} {b : Byte} :
    b = o.modrm ↔ b.extractLsb' 6 2 = o.src.modField ∧ b.extractLsb' 3 3 = o.dest.extractLsb' 0 3 ∧
      b.extractLsb' 0 3 = o.src.rmField := by
  rw [Operands.modrm, eq_append_iff 5 3, eq_append_iff 2 3]
  simp [extractLsb'_extractLsb', and_assoc]

/-- The fields of SIB (30_encoding.md R93). -/
theorem eq_sibByte_iff {sc : BitVec 2} {i : GprNum} {low : BitVec 3} {b : Byte} :
    b = sibByte sc i low ↔ b.extractLsb' 6 2 = sc ∧ b.extractLsb' 3 3 = i.extractLsb' 0 3 ∧
      b.extractLsb' 0 3 = low := by
  rw [sibByte, eq_append_iff 5 3, eq_append_iff 2 3]
  simp [extractLsb'_extractLsb', and_assoc]

/-- The parts of a general register number (30_encoding.md R92, R93). -/
theorem eq_ofBool_append_iff {x : Bool} {low : BitVec 3} {g : GprNum} :
    g = BitVec.ofBool x ++ low ↔ g.getLsbD 3 = x ∧ g.extractLsb' 0 3 = low := by
  rw [eq_append_iff 1 3, extractLsb'_one_eq_ofBool_iff]

/-- The parts of a vector register number (30_encoding.md R88). -/
theorem eq_ofBool_append_ofBool_append_iff {x y : Bool} {low : BitVec 3} {g : VecNum} :
    g = BitVec.ofBool x ++ BitVec.ofBool y ++ low ↔ g.getLsbD 4 = x ∧ g.getLsbD 3 = y ∧ g.extractLsb' 0 3 = low := by
  rw [eq_append_iff 2 3, eq_append_iff 1 1]
  simp [extractLsb'_extractLsb', and_assoc, extractLsb'_one_eq_ofBool_iff]

/-- The bytes of a displacement (30_encoding.md R97). -/
theorem eq_disp32_iff {b0 b1 b2 b3 : Byte} {d : BitVec 32} :
    d = b3 ++ b2 ++ b1 ++ b0 ↔ disp32Bytes d = [b0, b1, b2, b3] := by
  rw [eq_append_iff 24 8, eq_append_iff 16 8, eq_append_iff 8 8]
  simp [disp32Bytes, extractLsb'_extractLsb', and_comm]

theorem gprNum_fields (x : Bool) (low : BitVec 3) :
    (BitVec.ofBool x ++ low : GprNum).getLsbD 3 = x ∧ (BitVec.ofBool x ++ low : GprNum).extractLsb' 0 3 = low :=
  eq_ofBool_append_iff.1 rfl

@[simp] theorem ofBool_append_extractLsb' (g : GprNum) : BitVec.ofBool g[3] ++ g.extractLsb' 0 3 = g :=
  (eq_ofBool_append_iff.2 ⟨rfl, rfl⟩).symm

/-! ## Displacement and source, read and written -/

/-- Four bytes are read as a displacement exactly when they are its bytes (30_encoding.md R97). -/
theorem readDisp32_eq_some_iff {bs : List Byte} {d : BitVec 32} : readDisp32 bs = some d ↔ disp32Bytes d <+: bs :=
  match bs with
  | [] | [_] | [_, _] | [_, _, _] => by simp [readDisp32, disp32Bytes]
  | b0 :: b1 :: b2 :: b3 :: t => by
    rw [readDisp32, Option.some.injEq, eq_comm, eq_disp32_iff]
    simp [disp32Bytes]

/-- The displacement `mod` calls for is read exactly when its bytes are there (30_encoding.md R92). -/
theorem readDisp_eq_some_iff {md : BitVec 2} {bs : List Byte} {d : Disp} (h : md ≠ 3#2) :
    readDisp md bs = some d ↔ d.modField = md ∧ d.bytes <+: bs := by
  have hmd : md = 0#2 ∨ md = 1#2 ∨ md = 2#2 := by bv_omega
  obtain rfl | rfl | rfl := hmd
  · cases d <;> simp [readDisp, Disp.modField, Disp.bytes]
  · cases bs with
    | nil => cases d <;> simp [readDisp, Disp.modField, Disp.bytes]
    | cons b bs =>
      cases d with
      | disp8 d => simpa [readDisp, Disp.modField, Disp.bytes] using eq_comm
      | none | disp32 => simp [readDisp, Disp.modField, Disp.bytes]
  · cases d <;> simp [readDisp, Disp.modField, Disp.bytes, readDisp32_eq_some_iff]

@[simp] theorem Disp.modField_eq_zero_iff {d : Disp} : d.modField = 0#2 ↔ d = .none := by
  cases d <;> simp [Disp.modField]

/-- A base register without SIB is neither 100b, which calls for SIB, nor 101b without displacement (30_encoding.md R93,
R95). -/
theorem Src.wf_base_iff {bcast : Bool} {g : GprNum} {d : Disp} {x : Bool} :
    (Src.mem bcast (.base g d x)).wf = true ↔ g.extractLsb' 0 3 ≠ 4#3 ∧ ¬(d = .none ∧ g.extractLsb' 0 3 = 5#3) := by
  simp [Src.wf, Addr.wf, imp_iff_not_or]

/-- A base register in SIB is not 101b without displacement, which stands for no base (30_encoding.md R94(b)). -/
theorem Src.wf_sib_iff {bcast : Bool} {sc : BitVec 2} {i g : GprNum} {d : Disp} :
    (Src.mem bcast (.sib sc i g d)).wf = true ↔ ¬(d = .none ∧ g.extractLsb' 0 3 = 5#3) := by
  simp [Src.wf, Addr.wf, imp_iff_not_or]

/-- A source that the extension bits `x` and `b`, the bit `bcast`, the fields `md` and `rm` and the bytes `bs` after
ModRM spell (30_encoding.md R88 to R97); EVEX.b belongs to a memory source only (R89). -/
structure Src.Spelled (src : Src) (x b bcast : Bool) (md : BitVec 2) (rm : BitVec 3) (bs : List Byte) : Prop where
  wf : src.wf = true
  extX : src.extX = x
  extB : src.extB = b
  bcastBit : md ≠ 3#2 → src.bcastBit = bcast
  modField : src.modField = md
  rmField : src.rmField = rm
  tail : src.tail <+: bs

/-- An address that is read is spelled by what it is read from: R94(b) and R95 where `mod` = 00b, else R92 and R93. -/
theorem spelled_of_readAddr {a : Addr} {x b bcast : Bool} {md : BitVec 2} {rm : BitVec 3} {bs : List Byte}
    (hmd : md ≠ 3#2) (h : readAddr x b md rm bs = some a) : (Src.mem bcast a).Spelled x b bcast md rm bs := by
  unfold readAddr at h
  split_ifs at h with hsib hdirect
  · match bs, h with
    | sib :: rest, h =>
      have hindex := gprNum_fields x (sib.extractLsb' 3 3)
      simp only at h
      split_ifs at h with hnoBase
      · obtain ⟨d, hd, rfl⟩ := Option.map_eq_some_iff.1 h
        exact ⟨rfl, hindex.1, rfl, fun _ => rfl, hnoBase.1.symm, hsib.symm, List.cons_prefix_cons.2
          ⟨(eq_sibByte_iff.2 ⟨rfl, hindex.2.symm, hnoBase.2⟩).symm, readDisp32_eq_some_iff.1 hd⟩⟩
      · obtain ⟨d, hd, rfl⟩ := Option.map_eq_some_iff.1 h
        obtain ⟨rfl, htail⟩ := (readDisp_eq_some_iff hmd).1 hd
        obtain ⟨hb, hbase⟩ := gprNum_fields b (sib.extractLsb' 0 3)
        refine ⟨Src.wf_sib_iff.2 ?_, hindex.1, hb, fun _ => rfl, rfl, hsib.symm, List.cons_prefix_cons.2
          ⟨(eq_sibByte_iff.2 ⟨rfl, hindex.2.symm, hbase.symm⟩).symm, htail⟩⟩
        simpa [hbase] using hnoBase
  · obtain ⟨d, hd, rfl⟩ := Option.map_eq_some_iff.1 h
    exact ⟨rfl, rfl, rfl, fun _ => rfl, hdirect.1.symm, hdirect.2.symm, readDisp32_eq_some_iff.1 hd⟩
  · obtain ⟨d, hd, rfl⟩ := Option.map_eq_some_iff.1 h
    obtain ⟨rfl, htail⟩ := (readDisp_eq_some_iff hmd).1 hd
    obtain ⟨hb, hbase⟩ := gprNum_fields b rm
    refine ⟨Src.wf_base_iff.2 ?_, rfl, hb, fun _ => rfl, rfl, hbase, htail⟩
    simpa [hbase, hsib] using hdirect

/-- What spells a memory source is read as its address. -/
theorem readAddr_of_spelled {a : Addr} {x b bcast bcast' : Bool} {md : BitVec 2} {rm : BitVec 3} {bs : List Byte}
    (hmd : md ≠ 3#2) (h : (Src.mem bcast' a).Spelled x b bcast md rm bs) : readAddr x b md rm bs = some a := by
  obtain ⟨hwf, rfl, rfl, -, rfl, rfl, htail⟩ := h
  cases a with
  | base g d x =>
    obtain ⟨hsib, hdirect⟩ := Src.wf_base_iff.1 hwf
    have hd : readDisp d.modField bs = some d := (readDisp_eq_some_iff hmd).2 ⟨rfl, htail⟩
    simp [readAddr, Src.modField, Src.rmField, Src.extX, Src.extB, hsib, hdirect, hd]
  | sib sc i g d =>
    obtain ⟨rest, rfl⟩ := htail
    obtain ⟨hscale, hindex, hbase⟩ := eq_sibByte_iff.1 (rfl : sibByte sc i (g.extractLsb' 0 3) = _)
    have hnoBase := Src.wf_sib_iff.1 hwf
    have hd : readDisp d.modField (d.bytes ++ rest) = some d := (readDisp_eq_some_iff hmd).2 ⟨rfl, _, rfl⟩
    simp [readAddr, Src.modField, Src.rmField, Src.extX, Src.extB, Src.tail, hscale, hindex, hbase, hnoBase, hd]
  | sibNoBase sc i d b =>
    obtain ⟨rest, rfl⟩ := htail
    obtain ⟨hscale, hindex, hbase⟩ := eq_sibByte_iff.1 (rfl : sibByte sc i 5#3 = _)
    have hd : readDisp32 (disp32Bytes d ++ rest) = some d := readDisp32_eq_some_iff.2 ⟨_, rfl⟩
    simp [readAddr, Src.modField, Src.rmField, Src.extX, Src.extB, Src.tail, hscale, hindex, hbase, hd]
  | direct d x b =>
    have hd : readDisp32 bs = some d := readDisp32_eq_some_iff.2 htail
    simp [readAddr, Src.modField, Src.rmField, Src.extX, Src.extB, hd]

/-- `mod` = 11b is no memory source (30_encoding.md R89). -/
theorem Src.modField_mem_ne (bcast : Bool) (a : Addr) : (Src.mem bcast a).modField ≠ 3#2 := by
  cases a with
  | base _ d _ | sib _ _ _ d => cases d <;> simp [Src.modField, Disp.modField]
  | sibNoBase | direct => simp [Src.modField]

/-- A source is read exactly when it is spelled: `readSrc` and the encoder's fields agree. -/
theorem readSrc_eq_some_iff {src : Src} {x b bcast : Bool} {md : BitVec 2} {rm : BitVec 3} {bs : List Byte} :
    readSrc x b bcast md rm bs = some src ↔ src.Spelled x b bcast md rm bs := by
  unfold readSrc
  split_ifs with hmd
  · subst hmd
    constructor
    · intro h
      obtain rfl : _ = src := by simpa using h
      obtain ⟨hx, hb, hrm⟩ := eq_ofBool_append_ofBool_append_iff.1 (rfl : BitVec.ofBool x ++ BitVec.ofBool b ++ rm = _)
      exact ⟨rfl, hx, hb, absurd rfl, rfl, hrm, List.nil_prefix⟩
    · rintro ⟨-, rfl, rfl, -, hmod, rfl, -⟩
      cases src with
      | reg r => exact congrArg (fun r => some (Src.reg r)) (eq_ofBool_append_ofBool_append_iff.2 ⟨rfl, rfl, rfl⟩).symm
      | mem bcast a => exact absurd hmod (Src.modField_mem_ne _ _)
  · constructor
    · intro h
      obtain ⟨a, ha, rfl⟩ := Option.map_eq_some_iff.1 h
      exact spelled_of_readAddr hmd ha
    · intro h
      cases src with
      | reg r => exact absurd h.modField.symm hmd
      | mem bcast' a =>
        obtain rfl : bcast' = bcast := h.bcastBit hmd
        simp [readAddr_of_spelled hmd h]

/-! ## The form -/

/-- L'L is read as a form exactly when it is the form's (30_encoding.md R85). -/
theorem readForm_eq_some_iff {ll : BitVec 2} {f : Form} : readForm ll = some f ↔ ll = f.lengthField := by
  have hll : ll = 0#2 ∨ ll = 1#2 ∨ ll = 2#2 ∨ ll = 3#2 := by bv_omega
  obtain rfl | rfl | rfl | rfl := hll <;> cases f <;> decide

/-- L'L = 11b is reserved (30_encoding.md R104). -/
theorem readForm_eq_none_iff {ll : BitVec 2} : readForm ll = none ↔ ll = 3#2 := by
  have hll : ll = 0#2 ∨ ll = 1#2 ∨ ll = 2#2 ∨ ll = 3#2 := by bv_omega
  obtain rfl | rfl | rfl | rfl := hll <;> decide

/-! ## The bytes before 62H -/

/-- A byte is an allowed legacy byte exactly when it is the byte of that override or of 67H (30_encoding.md R98). -/
theorem legacyByte_eq_allowed_iff {m : Mode} {b : Byte} {p : LegacyPrefix} :
    legacyByte m b = .allowed p ↔ b = p.byte := by
  constructor
  · intro h
    grind [legacyByte, LegacyPrefix.byte]
  · rintro rfl
    cases p with
    | segment s => cases s <;> rfl
    | addressSize => rfl

/-- The bytes that raise #UD before 62H, as 30_encoding.md R98 lists them. -/
theorem forbiddenByte_iff {m : Mode} {b : Byte} :
    Machine.forbiddenByte m b = true ↔
      (b = 0xF0#8 ∨ b = 0x66#8 ∨ b = 0xF2#8 ∨ b = 0xF3#8) ∨ (m = .mode64 ∧ b.extractLsb' 4 4 = 4#4) := by
  simp [Machine.forbiddenByte]

/-- A byte raises #UD before 62H exactly when it is one of the forbidden ones: none of those is an allowed one. -/
theorem legacyByte_eq_undefined_iff {m : Mode} {b : Byte} :
    legacyByte m b = .undefined ↔ Machine.forbiddenByte m b = true := by
  rw [forbiddenByte_iff]
  constructor
  · intro h
    grind [legacyByte]
  · rintro ((rfl | rfl | rfl | rfl) | hrex)
    · rfl
    · rfl
    · rfl
    · rfl
    · have hne : ∀ c : Byte, c.extractLsb' 4 4 ≠ 4#4 → b ≠ c := by
        rintro c hc rfl
        exact hc hrex.2
      simp [legacyByte, hne, hrex]

/-- The allowed legacy bytes as they are listed in 30_encoding.md R98. -/
theorem mem_allowedBytes_iff {b : Byte} :
    [0x26#8, 0x2E#8, 0x36#8, 0x3E#8, 0x64#8, 0x65#8, 0x67#8].contains b = true ↔ ∃ p : LegacyPrefix, b = p.byte := by
  constructor
  · intro h
    simp only [List.contains_eq_mem, List.mem_cons, List.not_mem_nil, or_false, decide_eq_true_eq] at h
    obtain h | h | h | h | h | h | h := h
    exacts [⟨.segment .es, h⟩, ⟨.segment .cs, h⟩, ⟨.segment .ss, h⟩, ⟨.segment .ds, h⟩, ⟨.segment .fs, h⟩,
      ⟨.segment .gs, h⟩, ⟨.addressSize, h⟩]
  · rintro ⟨p, rfl⟩
    cases p with
    | segment s => cases s <;> decide
    | addressSize => decide

/-- A byte begins the opcode exactly when it is not one that may precede 62H (30_encoding.md R98). -/
theorem legacyByte_eq_opcode_iff {m : Mode} {b : Byte} :
    legacyByte m b = .opcode ↔ Machine.precedingByte m b = false := by
  rw [← Bool.not_eq_true, Machine.precedingByte, Bool.or_eq_true, mem_allowedBytes_iff, ← legacyByte_eq_undefined_iff]
  simp only [← legacyByte_eq_allowed_iff (m := m)]
  cases legacyByte m b <;> simp

/-- An allowed byte is scanned and listed. -/
@[simp] theorem scanLegacy_byte_cons (m : Mode) (p : LegacyPrefix) (bs : List Byte) :
    scanLegacy m (p.byte :: bs) =
      { scanLegacy m bs with allowed := p :: (scanLegacy m bs).allowed, count := (scanLegacy m bs).count + 1 } := by
  simp [scanLegacy, legacyByte_eq_allowed_iff.2 (rfl : p.byte = p.byte)]

/-- A forbidden byte is counted, and the scan raises #UD. -/
theorem scanLegacy_cons_of_forbidden {m : Mode} {b : Byte} (h : Machine.forbiddenByte m b = true) (bs : List Byte) :
    scanLegacy m (b :: bs) = { scanLegacy m bs with count := (scanLegacy m bs).count + 1, undefined := true } := by
  simp [scanLegacy, legacyByte_eq_undefined_iff.2 h]

/-- The scan ends at a byte that may not precede 62H. -/
theorem scanLegacy_cons_of_opcode {m : Mode} {b : Byte} (h : Machine.precedingByte m b = false) (bs : List Byte) :
    scanLegacy m (b :: bs) = ⟨[], 0, false, b :: bs⟩ := by
  simp [scanLegacy, legacyByte_eq_opcode_iff.2 h]

/-- A sequence of allowed bytes is scanned as its prefixes. -/
theorem scanLegacy_append (m : Mode) (ls : List LegacyPrefix) (bs : List Byte) :
    scanLegacy m (ls.map LegacyPrefix.byte ++ bs) =
      { scanLegacy m bs with
        allowed := ls ++ (scanLegacy m bs).allowed, count := ls.length + (scanLegacy m bs).count } := by
  induction ls with
  | nil => simp
  | cons p ls ih => simp [ih, Nat.add_right_comm]

/-- Prefixes alone are scanned to the end. -/
theorem scanLegacy_map (m : Mode) (ls : List LegacyPrefix) :
    scanLegacy m (ls.map LegacyPrefix.byte) = ⟨ls, ls.length, false, []⟩ := by
  simpa [scanLegacy] using scanLegacy_append m ls []

/-- Bytes that may precede 62H, allowed or not, are passed over. -/
theorem scanLegacy_append_rest {m : Mode} {ls : List Byte} (h : ∀ b ∈ ls, Machine.precedingByte m b = true)
    (bs : List Byte) : (scanLegacy m (ls ++ bs)).rest = (scanLegacy m bs).rest := by
  induction ls with
  | nil => rfl
  | cons b ls ih =>
    obtain ⟨hb, hls⟩ := List.forall_mem_cons.1 h
    have hne : legacyByte m b ≠ .opcode := by simp [legacyByte_eq_opcode_iff, hb]
    rw [List.cons_append, scanLegacy]
    split
    · contradiction
    · exact ih hls
    · exact ih hls

/-- A scan that meets no forbidden byte has read exactly the bytes of its prefixes. -/
theorem eq_append_of_scanLegacy {m : Mode} {bs : List Byte} (h : (scanLegacy m bs).undefined = false) :
    bs = (scanLegacy m bs).allowed.map LegacyPrefix.byte ++ (scanLegacy m bs).rest := by
  induction bs with
  | nil => rfl
  | cons b bs ih =>
    cases hb : legacyByte m b with
    | allowed p =>
      obtain rfl := legacyByte_eq_allowed_iff.1 hb
      simpa using ih (by simpa using h)
    | undefined =>
      rw [scanLegacy_cons_of_forbidden (legacyByte_eq_undefined_iff.1 hb)] at h
      contradiction
    | opcode => rw [scanLegacy_cons_of_opcode (legacyByte_eq_opcode_iff.1 hb)]; rfl

/-- The scan of prefixes before 62H. -/
theorem scanLegacy_append_evex (m : Mode) (ls : List LegacyPrefix) (bs : List Byte) :
    scanLegacy m (ls.map LegacyPrefix.byte ++ 0x62#8 :: bs) = ⟨ls, ls.length, false, 0x62#8 :: bs⟩ := by
  rw [scanLegacy_append, scanLegacy_cons_of_opcode (by cases m <;> decide)]
  simp

/-! ## The payload -/

/-- The EVEX bytes, opcode and ModRM of an instruction. -/
def Instr.evexBytes (i : Instr) : EvexBytes where
  p0 := i.operands.p0
  p1 := 0xFD#8
  p2 := i.operands.p2 i.form
  op := 0x4E#8
  modrm := i.operands.modrm

/-- The bytes are those of the VRSQRT14PD space that the mode reads as EVEX (30_encoding.md R82, R106, R107, R115). -/
theorem EvexBytes.foreign_eq_none_iff {m : Mode} {e : EvexBytes} :
    e.foreign m = none ↔ (m = .mode64 ∨ e.p0.extractLsb' 6 2 = 3#2) ∧ e.p0.extractLsb' 0 4 = 2#4 ∧
      e.p1.getLsbD 7 = true ∧ e.p1.extractLsb' 0 3 = 5#3 ∧ e.op = 0x4E#8 := by
  have hp0 : e.p0.extractLsb' 0 4 = 2#4 ↔ e.p0.extractLsb' 2 2 = 0#2 ∧ e.p0.extractLsb' 0 2 = 2#2 := by
    rw [show 2#4 = 0#2 ++ 2#2 from rfl, eq_append_iff 2 2]
    simp [extractLsb'_extractLsb']
  have hp1 : e.p1.extractLsb' 0 3 = 5#3 ↔ e.p1.getLsbD 2 = true ∧ e.p1.extractLsb' 0 2 = 1#2 := by
    rw [show 5#3 = 1#1 ++ 1#2 from rfl, eq_append_iff 1 2]
    simp [extractLsb'_extractLsb', extractLsb'_one_eq_one_iff]
  rw [hp0, hp1, EvexBytes.foreign]
  grind

/-- The bits of an encoding in the space are not reserved exactly under R102, R103 and R90. -/
theorem EvexBytes.reserved_eq_false_iff {e : EvexBytes} :
    e.reserved = false ↔ e.p1.extractLsb' 3 4 = 15#4 ∧ e.p2.getLsbD 3 = true ∧
      ¬(e.modrm.extractLsb' 6 2 = 3#2 ∧ e.p2.getLsbD 4 = true) := by
  simp [EvexBytes.reserved, and_assoc]

/-- The source that an encoding and the bytes after it spell. -/
abbrev EvexBytes.Spells (e : EvexBytes) (src : Src) (tail : List Byte) : Prop :=
  src.Spelled (!e.p0.getLsbD 6) (!e.p0.getLsbD 5) (e.p2.getLsbD 4) (e.modrm.extractLsb' 6 2)
    (e.modrm.extractLsb' 0 3) tail

/-- Steps 3 to 6 of 30_encoding.md R109 end at an instruction exactly when no step before stops. -/
theorem decodeEvex_eq_instr_iff {m : Mode} {ls : LegacyScan} {e : EvexBytes} {tail : List Byte} {i : Instr} :
    decodeEvex m ls e tail = .instr i ↔
      e.foreign m = none ∧ e.reserved = false ∧ ls.undefined = false ∧
        ∃ (src : Src) (f : Form), e.Spells src tail ∧ e.p2.extractLsb' 5 2 = f.lengthField ∧
          f.instr (e.operands ls.allowed src) = i := by
  simp only [EvexBytes.Spells, ← readSrc_eq_some_iff, ← readForm_eq_some_iff, decodeEvex]
  split
  · next hforeign => simp [hforeign]
  · next hspace =>
    split
    · next hnone => simp only [hnone, reduceCtorEq, false_and, exists_false, and_false]
    · next hsrc =>
      split
      · next hnone => simp [hnone]
      · next hform =>
        rw [hspace, hsrc, hform]
        cases e.reserved <;> cases ls.undefined <;> simp

/-- A register source has b = 0 (30_encoding.md R90). -/
theorem Src.bcastBit_of_modField {src : Src} (h : src.modField = 3#2) : src.bcastBit = false := by
  cases src with
  | reg r => rfl
  | mem bcast a => exact absurd h (Src.modField_mem_ne bcast a)

@[simp] theorem EvexBytes.operands_src (ls : List LegacyPrefix) (e : EvexBytes) (src : Src) :
    (e.operands ls src).src = src := rfl

@[simp] theorem EvexBytes.operands_legacy (ls : List LegacyPrefix) (e : EvexBytes) (src : Src) :
    (e.operands ls src).legacy = ls := rfl

/-- The EVEX bytes of the instruction of a form. -/
theorem Form.instr_evexBytes (f : Form) (o : Operands) :
    (f.instr o).evexBytes = ⟨o.p0, 0xFD#8, o.p2 f, 0x4E#8, o.modrm⟩ := by
  simp [Instr.evexBytes]

/-- The operands that are read off an encoding give its bytes back: every bit has a place. -/
theorem evexBytes_instr_operands {m : Mode} {e : EvexBytes} {src : Src} {f : Form} {tail : List Byte}
    (hspace : e.foreign m = none) (hreserved : e.reserved = false) (hsrc : e.Spells src tail)
    (hform : e.p2.extractLsb' 5 2 = f.lengthField) (ls : List LegacyPrefix) :
    (f.instr (e.operands ls src)).evexBytes = e := by
  obtain ⟨-, hmap, hw, hpp, hop⟩ := EvexBytes.foreign_eq_none_iff.1 hspace
  obtain ⟨hvvvv, hv, hb⟩ := EvexBytes.reserved_eq_false_iff.1 hreserved
  obtain ⟨hd4, hd3, hreg⟩ := eq_ofBool_append_ofBool_append_iff.1 (rfl : (e.operands ls src).dest = _)
  have hbcast : e.p2.getLsbD 4 = src.bcastBit := by
    by_cases hmod : e.modrm.extractLsb' 6 2 = 3#2
    · rw [Src.bcastBit_of_modField (hsrc.modField.trans hmod)]
      simpa [hmod] using hb
    · exact (hsrc.bcastBit hmod).symm
  have hp0 : e.p0 = (e.operands ls src).p0 := eq_p0_iff.2 ⟨hd3, hsrc.extX, hsrc.extB, hd4, hmap⟩
  have hp1 : e.p1 = 0xFD#8 := eq_p1_iff.2 ⟨hw, hvvvv, hpp⟩
  have hp2 : e.p2 = (e.operands ls src).p2 f := eq_p2_iff.2 ⟨rfl, hform, hbcast, hv, rfl⟩
  have hmodrm : e.modrm = (e.operands ls src).modrm :=
    eq_modrm_iff.2 ⟨hsrc.modField.symm, hreg.symm, hsrc.rmField.symm⟩
  rw [Form.instr_evexBytes, ← hp0, ← hp1, ← hp2, ← hop, ← hmodrm]

/-- An instruction's bytes are not reserved. -/
theorem Instr.evexBytes_reserved (i : Instr) : i.evexBytes.reserved = false := by
  obtain ⟨-, -, hb, hv, -⟩ := eq_p2_iff.1 (rfl : i.evexBytes.p2 = _)
  obtain ⟨hmod, -⟩ := eq_modrm_iff.1 (rfl : i.evexBytes.modrm = _)
  obtain ⟨-, hvvvv, -⟩ := eq_p1_iff.1 (rfl : i.evexBytes.p1 = _)
  refine EvexBytes.reserved_eq_false_iff.2 ⟨hvvvv, hv, fun ⟨h3, hb1⟩ => ?_⟩
  rw [hb, Src.bcastBit_of_modField (hmod ▸ h3)] at hb1
  contradiction

/-- An instruction's bytes spell its source. -/
theorem Instr.evexBytes_spells {i : Instr} (hwf : i.operands.src.wf = true) {tail : List Byte}
    (htail : i.operands.src.tail <+: tail) : i.evexBytes.Spells i.operands.src tail := by
  obtain ⟨-, hx, hb, -, -⟩ := eq_p0_iff.1 (rfl : i.evexBytes.p0 = _)
  obtain ⟨-, -, hbcast, -⟩ := eq_p2_iff.1 (rfl : i.evexBytes.p2 = _)
  obtain ⟨hmod, -, hrm⟩ := eq_modrm_iff.1 (rfl : i.evexBytes.modrm = _)
  exact ⟨hwf, hx, hb, fun _ => hbcast.symm, hmod.symm, hrm.symm, htail⟩

/-- The operands that are read off an instruction's bytes are its own. -/
theorem Instr.evexBytes_operands (i : Instr) :
    i.evexBytes.operands i.operands.legacy i.operands.src = i.operands := by
  obtain ⟨h3, -, -, h4, -⟩ := eq_p0_iff.1 (rfl : i.evexBytes.p0 = _)
  obtain ⟨hz, -, -, -, hk⟩ := eq_p2_iff.1 (rfl : i.evexBytes.p2 = _)
  obtain ⟨-, hreg, -⟩ := eq_modrm_iff.1 (rfl : i.evexBytes.modrm = _)
  have hdest : i.operands.dest = BitVec.ofBool (!i.evexBytes.p0.getLsbD 4) ++
      BitVec.ofBool (!i.evexBytes.p0.getLsbD 7) ++ i.evexBytes.modrm.extractLsb' 3 3 :=
    eq_ofBool_append_ofBool_append_iff.2 ⟨h4, h3, hreg.symm⟩
  simp only [EvexBytes.operands, ← hdest, hz, hk]

/-- The mode reads an instruction's bytes as VRSQRT14PD: always in 64-bit mode, and elsewhere when R and X are 0
(30_encoding.md R82). -/
abbrev Instr.ReadableIn (i : Instr) (m : Mode) : Prop :=
  m = .mode64 ∨ (i.operands.dest.getLsbD 3 = false ∧ i.operands.src.extX = false)

/-- An instruction's bytes are of the space in the modes that read them as EVEX: R and X are P0[7:6], inverted. -/
theorem Instr.evexBytes_foreign_iff {m : Mode} {i : Instr} : i.evexBytes.foreign m = none ↔ i.ReadableIn m := by
  obtain ⟨h3, hx, -, -, hmap⟩ := eq_p0_iff.1 (rfl : i.evexBytes.p0 = _)
  obtain ⟨hw, -, hpp⟩ := eq_p1_iff.1 (rfl : i.evexBytes.p1 = _)
  have hupper : i.evexBytes.p0.extractLsb' 6 2 = 3#2 ↔
      i.evexBytes.p0.getLsbD 7 = true ∧ i.evexBytes.p0.getLsbD 6 = true := by
    rw [show 3#2 = 1#1 ++ 1#1 from rfl, eq_append_iff 1 1]
    simp [extractLsb'_extractLsb', extractLsb'_one_eq_one_iff]
  rw [EvexBytes.foreign_eq_none_iff, Instr.ReadableIn, hupper, h3, hx]
  have hop : i.evexBytes.op = 0x4E#8 := rfl
  simp [hmap, hw, hpp, hop]

/-! ## Decoding and encoding -/

/-- Behind the legacy bytes an encoding is 62H, the EVEX bytes and the source's bytes (30_encoding.md R80). -/
theorem encode_eq (i : Instr) :
    encode i = i.operands.legacy.map LegacyPrefix.byte ++ 0x62#8 :: i.evexBytes.p0 :: i.evexBytes.p1 ::
      i.evexBytes.p2 :: i.evexBytes.op :: i.evexBytes.modrm :: i.operands.src.tail := rfl

/-- Where the scan leaves 62H and five bytes, the payload decides. -/
theorem decode_of_scanLegacy {m : Mode} {bs tail : List Byte} {e : EvexBytes}
    (h : (scanLegacy m bs).rest = 0x62#8 :: e.p0 :: e.p1 :: e.p2 :: e.op :: e.modrm :: tail) :
    decode m bs = decodeEvex m (scanLegacy m bs) e tail := by
  simp [decode, h]

/-- Behind prefixes the payload decides. -/
theorem decode_append_evex (m : Mode) (ls : List LegacyPrefix) (e : EvexBytes) (tail : List Byte) :
    decode m (ls.map LegacyPrefix.byte ++ 0x62#8 :: e.p0 :: e.p1 :: e.p2 :: e.op :: e.modrm :: tail) =
      decodeEvex m ⟨ls, ls.length, false, 0x62#8 :: e.p0 :: e.p1 :: e.p2 :: e.op :: e.modrm :: tail⟩ e tail := by
  have hscan := scanLegacy_append_evex m ls (e.p0 :: e.p1 :: e.p2 :: e.op :: e.modrm :: tail)
  rw [decode_of_scanLegacy (e := e) (tail := tail) (by rw [hscan]), hscan]

/-- An instruction is read only where the scan leaves 62H and five bytes. -/
theorem scanLegacy_of_decode {m : Mode} {bs : List Byte} {i : Instr} (h : decode m bs = .instr i) :
    ∃ (e : EvexBytes) (tail : List Byte),
      (scanLegacy m bs).rest = 0x62#8 :: e.p0 :: e.p1 :: e.p2 :: e.op :: e.modrm :: tail := by
  unfold decode at h
  dsimp only at h
  split at h
  · contradiction
  · split_ifs at h with hb
    split at h
    · next hrest => exact ⟨⟨_, _, _, _, _⟩, _, by rw [hrest, hb]⟩
    · contradiction

/-- The payload of an instruction, its source's bytes after it, is read as the instruction. -/
theorem decodeEvex_evexBytes {m : Mode} {ls : LegacyScan} {tail : List Byte} {i : Instr}
    (hls : ls.undefined = false) (hlegacy : ls.allowed = i.operands.legacy) (hwf : i.operands.src.wf = true)
    (hm : i.ReadableIn m) (htail : i.operands.src.tail <+: tail) : decodeEvex m ls i.evexBytes tail = .instr i := by
  obtain ⟨-, hform, -⟩ := eq_p2_iff.1 (rfl : i.evexBytes.p2 = _)
  refine decodeEvex_eq_instr_iff.2 ⟨Instr.evexBytes_foreign_iff.2 hm, i.evexBytes_reserved, hls, i.operands.src, i.form,
    Instr.evexBytes_spells hwf htail, hform, ?_⟩
  rw [hlegacy, i.evexBytes_operands]
  cases i <;> rfl

/-- The decoder and the encoder agree: bytes are read as an instruction exactly when they begin with its encoding, its
address form is one ModRM and SIB can write, and the mode reads its bytes as EVEX. -/
theorem decode_eq_instr_iff {m : Mode} {bs : List Byte} {i : Instr} :
    decode m bs = .instr i ↔ encode i <+: bs ∧ i.operands.src.wf = true ∧ i.ReadableIn m := by
  constructor
  · intro h
    obtain ⟨e, tail, hrest⟩ := scanLegacy_of_decode h
    rw [decode_of_scanLegacy hrest] at h
    obtain ⟨hspace, hreserved, hls, src, f, hsrc, hform, rfl⟩ := decodeEvex_eq_instr_iff.1 h
    have he := evexBytes_instr_operands hspace hreserved hsrc hform (scanLegacy m bs).allowed
    rw [← he] at hspace
    refine ⟨?_, by simpa using hsrc.wf, Instr.evexBytes_foreign_iff.1 hspace⟩
    have hbs := eq_append_of_scanLegacy hls
    rw [hrest] at hbs
    generalize (scanLegacy m bs).allowed = ls at hbs he ⊢
    rw [encode_eq, he, hbs]
    simpa using hsrc.tail
  · rintro ⟨⟨rest, rfl⟩, hwf, hm⟩
    rw [encode_eq, List.append_assoc]
    exact (decode_append_evex _ _ _ _).trans (decodeEvex_evexBytes rfl rfl hwf hm ⟨rest, rfl⟩)

/-- Settles O1: in 64-bit mode every instruction's bytes are read as EVEX. -/
theorem decodeOfEncodeIn64BitMode : Obligations.DecodeOfEncodeIn64BitMode :=
  fun _ _ hwf => decode_eq_instr_iff.2 ⟨List.prefix_append _ _, hwf, Or.inl rfl⟩

/-- Settles O2: with R = X = 0 they are read as EVEX in every mode. -/
theorem decodeOfEncodeOutside64BitMode : Obligations.DecodeOfEncodeOutside64BitMode :=
  fun _ _ _ _ hwf hr hx => decode_eq_instr_iff.2 ⟨List.prefix_append _ _, hwf, Or.inr ⟨hr, hx⟩⟩

/-- Settles O3, the other direction of `decode_eq_instr_iff`. -/
theorem decodedBytesAreTheEncoding : Obligations.DecodedBytesAreTheEncoding := by
  intro m bs i h
  obtain ⟨⟨rest, hbs⟩, hwf, -⟩ := decode_eq_instr_iff.1 h
  exact ⟨hwf, rest, hbs.symm⟩

/-! ## The five bytes of a row of the table -/

/-- Joined words agree part by part. -/
theorem append_inj_iff {v w : Nat} {a c : BitVec v} {b d : BitVec w} : a ++ b = c ++ d ↔ a = c ∧ b = d := by
  rw [eq_append_iff, BitVec.extractLsb'_append_eq_left, BitVec.extractLsb'_append_eq_right]

/-- A mask of ones only keeps every bit. -/
theorem and_ofNat_of_eq {w n : Nat} (x : BitVec w) (h : n = 2 ^ w - 1) : x &&& BitVec.ofNat w n = x := by
  rw [h, show BitVec.ofNat w (2 ^ w - 1) = BitVec.allOnes w from BitVec.eq_of_toNat_eq (by simp), BitVec.and_allOnes]

/-- The mask of a whole byte. -/
theorem and_ofNat_255 (b : Byte) : b &&& 0xFF#8 = b := and_ofNat_of_eq b rfl

/-- Five bytes match under a mask exactly when each of them does. -/
theorem fiveBytes_and_eq_iff {b0 b1 b2 b3 b4 m0 m1 m2 m3 m4 c0 c1 c2 c3 c4 : Byte} :
    (b0 ++ b1 ++ b2 ++ b3 ++ b4) &&& (m0 ++ m1 ++ m2 ++ m3 ++ m4) = c0 ++ c1 ++ c2 ++ c3 ++ c4 ↔
      b0 &&& m0 = c0 ∧ b1 &&& m1 = c1 ∧ b2 &&& m2 = c2 ∧ b3 &&& m3 = c3 ∧ b4 &&& m4 = c4 := by
  simp only [BitVec.and_append, append_inj_iff, and_assoc]

/-- P0 under the masks of the table: the map and the reserved bits. -/
theorem and_mask_eq_p0_iff {b : Byte} : b &&& 0x0F#8 = 0x02#8 ↔ b.extractLsb' 0 4 = 2#4 := by
  rw [show 0x02#8 = 0#4 ++ 2#4 from rfl, eq_append_iff 4 4]
  simp [BitVec.extractLsb'_and, and_ofNat_of_eq]

/-- P1 under the mask of the VRSQRT14PD space (30_encoding.md R115): W, the fixed bit and pp. -/
theorem and_mask_eq_p1_iff {b : Byte} : b &&& 0x87#8 = 0x85#8 ↔ b.getLsbD 7 = true ∧ b.extractLsb' 0 3 = 5#3 := by
  rw [show 0x85#8 = 1#1 ++ 0#4 ++ 5#3 from rfl, eq_append_iff 5 3, eq_append_iff 1 4]
  simp [BitVec.extractLsb'_and, extractLsb'_extractLsb', extractLsb'_one_eq_one_iff, and_ofNat_of_eq]

/-- P2 under the mask of the table (30_encoding.md R101): L'L and V'n. -/
theorem and_mask_eq_p2_iff {b : Byte} {ll : BitVec 2} :
    b &&& 0x68#8 = 0#1 ++ ll ++ 0#1 ++ 1#1 ++ 0#3 ↔ b.extractLsb' 5 2 = ll ∧ b.getLsbD 3 = true := by
  rw [eq_append_iff 5 3, eq_append_iff 4 1, eq_append_iff 3 1, eq_append_iff 1 2]
  simp [BitVec.extractLsb'_and, extractLsb'_extractLsb', extractLsb'_one_eq_one_iff, and_ofNat_of_eq]

/-- Five bytes match the row of a form exactly when their fixed fields are the form's (30_encoding.md R101). -/
theorem rowMatch_iff {f : Form} {b0 b1 b2 b3 b4 : Byte} :
    (b0 ++ b1 ++ b2 ++ b3 ++ b4 : BitVec 40) &&& 0xFF0FFF68FF#40 = Machine.rowMatch f ↔
      b0 = 0x62#8 ∧ b1.extractLsb' 0 4 = 2#4 ∧ b2 = 0xFD#8 ∧
        (b3.extractLsb' 5 2 = f.lengthField ∧ b3.getLsbD 3 = true) ∧ b4 = 0x4E#8 := by
  have hmask : 0xFF0FFF68FF#40 = 0xFF#8 ++ 0x0F#8 ++ 0xFF#8 ++ 0x68#8 ++ 0xFF#8 := rfl
  have hmatch : Machine.rowMatch f =
      0x62#8 ++ 0x02#8 ++ 0xFD#8 ++ (0#1 ++ f.lengthField ++ 0#1 ++ 1#1 ++ 0#3) ++ 0x4E#8 := by cases f <;> rfl
  rw [hmask, hmatch, fiveBytes_and_eq_iff, and_mask_eq_p0_iff, and_mask_eq_p2_iff]
  simp only [and_ofNat_255]

/-- Five bytes lie in the VRSQRT14PD space exactly when opcode, map, W, pp and the fixed bits are its own
(30_encoding.md R115). -/
theorem spaceMatch_iff {b0 b1 b2 b3 b4 : Byte} :
    (b0 ++ b1 ++ b2 ++ b3 ++ b4 : BitVec 40) &&& 0xFF0F8700FF#40 = 0x620285004E#40 ↔
      b0 = 0x62#8 ∧ b1.extractLsb' 0 4 = 2#4 ∧ (b2.getLsbD 7 = true ∧ b2.extractLsb' 0 3 = 5#3) ∧ b4 = 0x4E#8 := by
  have hmask : 0xFF0F8700FF#40 = 0xFF#8 ++ 0x0F#8 ++ 0x87#8 ++ 0x00#8 ++ 0xFF#8 := rfl
  have hmatch : 0x620285004E#40 = 0x62#8 ++ 0x02#8 ++ 0x85#8 ++ 0x00#8 ++ 0x4E#8 := rfl
  rw [hmask, hmatch, fiveBytes_and_eq_iff, and_mask_eq_p0_iff, and_mask_eq_p1_iff]
  simp only [and_ofNat_255, BitVec.and_zero, true_and]

/-! ## Enough bytes after ModRM -/

/-- No source has more than five bytes after ModRM (30_encoding.md R100). -/
theorem Src.nsib_add_ndisp_le (src : Src) : src.nsib + src.ndisp ≤ 5 := by
  have hsize : ∀ d : Disp, d.size ≤ 4 := by rintro (_ | _ | _) <;> simp [Disp.size]
  cases src with
  | reg r => simp [Src.nsib, Src.ndisp]
  | mem bcast a =>
    cases a with
    | base g d x => exact (Nat.zero_add _).trans_le ((hsize d).trans (by decide))
    | sib sc i g d => exact Nat.add_le_add_left (hsize d) 1
    | sibNoBase => exact le_rfl
    | direct => simp [Src.nsib, Src.ndisp]

/-- Four bytes hold a displacement of four bytes. -/
theorem exists_readDisp32 {bs : List Byte} (h : 4 ≤ bs.length) : ∃ d, readDisp32 bs = some d := by
  match bs, h with
  | b0 :: b1 :: b2 :: b3 :: t, _ => exact ⟨_, rfl⟩

/-- Four bytes hold every displacement. -/
theorem exists_readDisp (md : BitVec 2) {bs : List Byte} (h : 4 ≤ bs.length) : ∃ d, readDisp md bs = some d := by
  obtain ⟨d, hd⟩ := exists_readDisp32 h
  unfold readDisp
  split_ifs
  · exact ⟨_, rfl⟩
  · match bs, h with
    | b :: t, _ => exact ⟨_, rfl⟩
  · exact ⟨_, by rw [hd, Option.map_some]⟩

/-- Five bytes hold every address: SIB and a displacement. -/
theorem exists_readAddr (x b : Bool) (md : BitVec 2) (rm : BitVec 3) {bs : List Byte} (h : 5 ≤ bs.length) :
    ∃ a, readAddr x b md rm bs = some a := by
  match bs, h with
  | sib :: t, h =>
    have ht : 4 ≤ t.length := by simpa using h
    obtain ⟨d, hd⟩ := exists_readDisp md ht
    obtain ⟨d', hd'⟩ := exists_readDisp32 ht
    obtain ⟨e, he⟩ := exists_readDisp md (bs := sib :: t) (Nat.le_of_succ_le h)
    obtain ⟨e', he'⟩ := exists_readDisp32 (bs := sib :: t) (Nat.le_of_succ_le h)
    simp only [readAddr, hd, hd', he, he', Option.map_some]
    split_ifs <;> exact ⟨_, rfl⟩

/-- Five bytes after ModRM are enough for every source. -/
theorem EvexBytes.exists_spells (e : EvexBytes) {tail : List Byte} (h : 5 ≤ tail.length) :
    ∃ src, e.Spells src tail := by
  simp only [EvexBytes.Spells, ← readSrc_eq_some_iff, readSrc]
  split_ifs
  · exact ⟨_, rfl⟩
  · obtain ⟨a, ha⟩ := exists_readAddr (!e.p0.getLsbD 6) (!e.p0.getLsbD 5) (e.modrm.extractLsb' 6 2)
      (e.modrm.extractLsb' 0 3) h
    exact ⟨_, by rw [ha, Option.map_some]⟩

/-- Settles O4: the row's fields are those `decodeEvex` asks for, and five bytes are enough for every source. -/
theorem rowSelection : Obligations.RowSelection := by
  intro f b0 b1 b2 b3 b4 modrm tail htail
  rw [rowMatch_iff]
  constructor
  · rintro ⟨o, ho, hdec⟩
    obtain ⟨hprefix, -, -⟩ := decode_eq_instr_iff.1 hdec
    have hreserved := (f.instr o).evexBytes_reserved
    simp only [encode_eq, Machine.Form.instr_operands, Form.instr_evexBytes, ho, List.map_nil, List.nil_append,
      List.cons_prefix_cons] at hprefix hreserved
    obtain ⟨rfl, rfl, rfl, rfl, rfl, rfl, -⟩ := hprefix
    obtain ⟨-, -, -, -, hmap⟩ := eq_p0_iff.1 (rfl : o.p0 = _)
    obtain ⟨-, hll, -, hv, -⟩ := eq_p2_iff.1 (rfl : o.p2 f = _)
    obtain ⟨-, -, hb⟩ := EvexBytes.reserved_eq_false_iff.1 hreserved
    exact ⟨⟨rfl, hmap, rfl, ⟨hll, hv⟩, rfl⟩, hb⟩
  · rintro ⟨⟨rfl, hmap, rfl, ⟨hll, hv⟩, rfl⟩, hb⟩
    let e : EvexBytes := ⟨b1, 0xFD#8, b3, 0x4E#8, modrm⟩
    obtain ⟨hw, hvvvv, hpp⟩ := eq_p1_iff.1 (rfl : e.p1 = _)
    obtain ⟨src, hsrc⟩ := e.exists_spells htail
    refine ⟨e.operands [] src, rfl, ?_⟩
    have hspace : e.foreign .mode64 = none := EvexBytes.foreign_eq_none_iff.2 ⟨Or.inl rfl, hmap, hw, hpp, rfl⟩
    have hreserved : e.reserved = false := EvexBytes.reserved_eq_false_iff.2 ⟨hvvvv, hv, hb⟩
    exact (decode_append_evex .mode64 [] e tail).trans
      (decodeEvex_eq_instr_iff.2 ⟨hspace, hreserved, rfl, src, f, hsrc, hll, rfl⟩)

/-! ## Bytes that are undefined, rejected or too few -/

/-- An encoding of the space that is reserved, or stands behind a forbidden byte, is undefined with R100's length
(60_exceptions.md R193 (a) to (e)). -/
theorem decodeEvex_eq_undefined {m : Mode} {ls : LegacyScan} {e : EvexBytes} {tail : List Byte} {src : Src}
    (hspace : e.foreign m = none) (hsrc : e.Spells src tail)
    (h : e.p2.extractLsb' 5 2 = 3#2 ∨ e.reserved = true ∨ ls.undefined = true) :
    decodeEvex m ls e tail = .undefined (src.lengthAfter ls.count) := by
  rw [decodeEvex, hspace, readSrc_eq_some_iff.2 hsrc]
  rw [← readForm_eq_none_iff] at h
  cases hform : readForm (e.p2.extractLsb' 5 2) with
  | none => rfl
  | some f =>
    have hund : (e.reserved || ls.undefined) = true := by simpa [hform] using h
    simp [hund]

/-- A forbidden byte before an instruction is counted and makes it undefined. -/
theorem decode_forbidden_cons_encode {m : Mode} {b : Byte} {i : Instr} (hb : Machine.forbiddenByte m b = true)
    (hwf : i.operands.src.wf = true) (hm : i.ReadableIn m) (rest : List Byte) :
    decode m (b :: (encode i ++ rest)) = .undefined (i.operands.length + 1) := by
  have hscan := scanLegacy_cons_of_forbidden hb (encode i ++ rest)
  rw [encode_eq, List.append_assoc] at hscan ⊢
  simp only [List.cons_append, scanLegacy_append_evex] at hscan ⊢
  rw [decode_of_scanLegacy (e := i.evexBytes) (tail := i.operands.src.tail ++ rest) (by rw [hscan]), hscan,
    decodeEvex_eq_undefined (Instr.evexBytes_foreign_iff.2 hm) (Instr.evexBytes_spells hwf (List.prefix_append _ _))
      (Or.inr (Or.inr rfl))]
  simp only [Operands.length, Src.lengthAfter, Decoded.undefined.injEq]
  omega

/-- An encoding that is not of the space is rejected. -/
theorem decodeEvex_eq_rejected {m : Mode} {e : EvexBytes} {r : Rejection} (h : e.foreign m = some r) (ls : LegacyScan)
    (tail : List Byte) : decodeEvex m ls e tail = .rejected r := by
  rw [decodeEvex, h]

/-- Where no source is spelled the bytes end before the instruction does. -/
theorem decodeEvex_eq_outOfBytes {m : Mode} {e : EvexBytes} {tail : List Byte} (hspace : e.foreign m = none)
    (h : ∀ src, ¬e.Spells src tail) (ls : LegacyScan) : decodeEvex m ls e tail = .rejected .outOfBytes := by
  simp only [EvexBytes.Spells, ← readSrc_eq_some_iff] at h
  rw [decodeEvex, hspace, Option.eq_none_iff_forall_ne_some.2 h]

/-- Fewer bytes than a source has spell none: the longer bytes would spell two sources. -/
theorem EvexBytes.not_spells_of_append {e : EvexBytes} {src : Src} {t more : List Byte} (h : e.Spells src src.tail)
    (htail : src.tail = t ++ more) (hmore : more ≠ []) (src' : Src) : ¬e.Spells src' t := by
  intro h'
  have hlong : e.Spells src' src.tail := { h' with tail := h'.tail.trans (htail ▸ List.prefix_append t more) }
  have : some src' = some src := by rw [← readSrc_eq_some_iff.2 hlong, readSrc_eq_some_iff.2 h]
  obtain rfl : src' = src := Option.some.inj this
  have := h'.tail.length_le
  rw [htail, List.length_append] at this
  exact hmore (List.length_eq_zero_iff.1 (by omega))

/-- Bytes that end inside the legacy bytes or before ModRM are not enough. -/
theorem decode_eq_outOfBytes {m : Mode} {bs : List Byte}
    (h : (scanLegacy m bs).rest = [] ∨ ∃ r, (scanLegacy m bs).rest = 0x62#8 :: r ∧ r.length < 5) :
    decode m bs = .rejected .outOfBytes := by
  obtain h | ⟨r, h, hr⟩ := h
  · simp [decode, h]
  · match r, hr with
    | [], _ | [_], _ | [_, _], _ | [_, _, _], _ | [_, _, _, _], _ => simp [decode, h]

/-- A proper beginning of an instruction's bytes is not enough, wherever it ends. -/
theorem decode_eq_outOfBytes_of_encode {m : Mode} {bs more : List Byte} {i : Instr} (hbs : encode i = bs ++ more)
    (hmore : more ≠ []) (hwf : i.operands.src.wf = true) (hm : i.ReadableIn m) :
    decode m bs = .rejected .outOfBytes := by
  obtain ⟨bs', rfl, h⟩ | ⟨c, hlegacy, -⟩ := List.append_eq_append_iff.1 ((encode_eq i).symm.trans hbs)
  · match bs', h with
    | [], _ => exact decode_eq_outOfBytes (Or.inl (by rw [List.append_nil, scanLegacy_map]))
    | b :: r, h =>
      rw [List.cons_append, List.cons.injEq] at h
      obtain ⟨rfl, hr⟩ := h
      obtain hshort | hlong := Nat.lt_or_ge r.length 5
      · exact decode_eq_outOfBytes (Or.inr ⟨r, by rw [scanLegacy_append_evex], hshort⟩)
      · match r, hr with
        | p0 :: p1 :: p2 :: op :: modrm :: t, hr =>
          simp only [List.cons_append, List.cons.injEq] at hr
          obtain ⟨rfl, rfl, rfl, rfl, rfl, htail⟩ := hr
          have hnone : ∀ src, ¬i.evexBytes.Spells src t :=
            EvexBytes.not_spells_of_append (Instr.evexBytes_spells hwf List.prefix_rfl) htail hmore
          exact (decode_append_evex _ _ _ _).trans
            (decodeEvex_eq_outOfBytes (Instr.evexBytes_foreign_iff.2 hm) hnone _)
  · obtain ⟨ls, _, -, rfl, -⟩ := List.map_eq_append_iff.1 hlegacy
    exact decode_eq_outOfBytes (Or.inl (by rw [scanLegacy_map]))

/-- Behind bytes that may precede 62H any other opcode byte is not EVEX (30_encoding.md R109 step 2). -/
theorem decode_eq_notEvex {m : Mode} {ls : List Byte} {b : Byte} (hls : ∀ x ∈ ls, Machine.precedingByte m x = true)
    (hb : Machine.precedingByte m b = false) (h62 : b ≠ 0x62#8) (rest : List Byte) :
    decode m (ls ++ b :: rest) = .rejected .notEvex := by
  have hrest : (scanLegacy m (ls ++ b :: rest)).rest = b :: rest := by
    rw [scanLegacy_append_rest hls, scanLegacy_cons_of_opcode hb]
  simp [decode, hrest, h62]

/-- Behind bytes that may precede it an encoding that is not of the space is rejected (30_encoding.md R109 step 3). -/
theorem decode_eq_rejected {m : Mode} {ls : List Byte} (hls : ∀ x ∈ ls, Machine.precedingByte m x = true)
    {e : EvexBytes} {r : Rejection} (h : e.foreign m = some r) (tail : List Byte) :
    decode m (ls ++ 0x62#8 :: e.p0 :: e.p1 :: e.p2 :: e.op :: e.modrm :: tail) = .rejected r := by
  have hscan := scanLegacy_append_evex m [] (e.p0 :: e.p1 :: e.p2 :: e.op :: e.modrm :: tail)
  rw [List.map_nil, List.nil_append] at hscan
  rw [decode_of_scanLegacy (e := e) (tail := tail) (by rw [scanLegacy_append_rest hls, hscan]),
    decodeEvex_eq_rejected h]

end Sys2Proof

namespace Sys2Proof.Machine

/-! ## Steps that stop at the bytes -/

/-- A shorter text at the same address is in range too. -/
theorem State.textInRange_of_le {s : State} {k n : Nat} (h : s.textInRange n = true) (hk : k ≤ n) :
    s.textInRange k = true := by
  by_cases hm : s.mode = .mode64
  · obtain ⟨hend, hcanon⟩ := (State.textInRange_mode64_iff hm).1 h
    exact (State.textInRange_mode64_iff hm).2 ⟨by omega, fun i hi => hcanon i (by omega)⟩
  · have := (State.textInRange_iff_of_ne_mode64 hm).1 h
    exact (State.textInRange_iff_of_ne_mode64 hm).2 (by omega)

/-- Bytes that are undefined, in range and at most 15 raise #UD (60_exceptions.md R193). -/
theorem step_eq_invalidOpcode {s : State} {n : Nat} (h : decode s.mode s.text = .undefined n) (hn : n ≤ 15)
    (hrange : s.textInRange n = true) : step s = .fault (.invalidOpcode s.pc) := by
  simp [step, h, State.undefinedEncoding, hrange, maxLength, Nat.not_lt.2 hn, State.raise, Stop.outcome]

/-- Bytes that are rejected for another reason than their end are refused by that name. -/
theorem step_eq_notVrsqrt14pd {s : State} {r : Rejection} (h : decode s.mode s.text = .rejected r)
    (hr : r ≠ .outOfBytes) : step s = .refused (.notVrsqrt14pd r) := by
  rw [step, h]
  cases r with
  | outOfBytes => contradiction
  | _ => rfl

/-- A reserved encoding of the space behind prefixes raises #UD, at most 15 bytes being in range. -/
theorem step_eq_invalidOpcode_of_reserved {s : State} {ls : List LegacyPrefix} {e : EvexBytes} {tail : List Byte}
    {src : Src}
    (htext : s.text = ls.map LegacyPrefix.byte ++ 0x62#8 :: e.p0 :: e.p1 :: e.p2 :: e.op :: e.modrm :: tail)
    (hspace : e.foreign s.mode = none) (hsrc : e.Spells src tail)
    (hres : e.p2.extractLsb' 5 2 = 3#2 ∨ e.reserved = true) (hlen : src.lengthAfter ls.length ≤ 15)
    (hrange : s.textInRange 15 = true) : step s = .fault (.invalidOpcode s.pc) := by
  refine step_eq_invalidOpcode ?_ hlen (State.textInRange_of_le hrange hlen)
  rw [htext, decode_append_evex, decodeEvex_eq_undefined hspace hsrc (by tauto)]

/-- Behind at most four prefixes five bytes after ModRM keep every source within 15 bytes. -/
theorem step_eq_invalidOpcode_of_reserved_of_tail {s : State} {ls : List LegacyPrefix} {e : EvexBytes}
    {tail : List Byte}
    (htext : s.text = ls.map LegacyPrefix.byte ++ 0x62#8 :: e.p0 :: e.p1 :: e.p2 :: e.op :: e.modrm :: tail)
    (hls : ls.length ≤ 4) (htail : 5 ≤ tail.length) (hrange : s.textInRange 15 = true)
    (hspace : e.foreign s.mode = none) (hres : e.p2.extractLsb' 5 2 = 3#2 ∨ e.reserved = true) :
    step s = .fault (.invalidOpcode s.pc) := by
  obtain ⟨src, hsrc⟩ := e.exists_spells htail
  have := src.nsib_add_ndisp_le
  exact step_eq_invalidOpcode_of_reserved htext hspace hsrc hres (by unfold Src.lengthAfter; omega) hrange

/-- Settles O5: a row is missed in L'L = 11b, which `readForm` refuses, or in a reserved field. -/
theorem spaceOutsideRowsRaisesInvalidOpcode : Obligations.SpaceOutsideRowsRaisesInvalidOpcode := by
  intro s ls b0 b1 b2 b3 b4 modrm tail htext hls htail hm hrange hspace hrows
  obtain ⟨rfl, hmap, ⟨hw, hpp⟩, rfl⟩ := spaceMatch_iff.1 hspace
  let e : EvexBytes := ⟨b1, b2, b3, 0x4E#8, modrm⟩
  refine step_eq_invalidOpcode_of_reserved_of_tail (e := e) htext hls htail hrange
    (EvexBytes.foreign_eq_none_iff.2 ⟨hm, hmap, hw, hpp, rfl⟩) ?_
  rw [← readForm_eq_none_iff]
  by_contra! hnot
  obtain ⟨f, hf⟩ := Option.ne_none_iff_exists'.1 hnot.1
  have hres : e.reserved = false := by simpa using hnot.2
  obtain ⟨hvvvv, hv, -⟩ := EvexBytes.reserved_eq_false_iff.1 hres
  exact hrows f (rowMatch_iff.2 ⟨rfl, hmap, eq_p1_iff.2 ⟨hw, hvvvv, hpp⟩, ⟨readForm_eq_some_iff.1 hf, hv⟩, rfl⟩)

/-- Settles O6: vvvv is one of the reserved fields. -/
theorem vvvvReservedRaisesInvalidOpcode : Obligations.VvvvReservedRaisesInvalidOpcode := by
  intro s ls p0 p1 p2 modrm tail htext hls htail hm hrange hmap hw hpp hvvvv
  refine step_eq_invalidOpcode_of_reserved_of_tail (e := ⟨p0, p1, p2, 0x4E#8, modrm⟩) htext hls htail hrange
    (EvexBytes.foreign_eq_none_iff.2 ⟨hm, hmap, hw, hpp, rfl⟩) (Or.inr ?_)
  simp [EvexBytes.reserved, hvvvv]

/-- Settles O7: a register source has no bytes after ModRM, so nine prefixes make 15 bytes. -/
theorem registerSourceWithBroadcastBitRaisesInvalidOpcode :
    Obligations.RegisterSourceWithBroadcastBitRaisesInvalidOpcode := by
  intro s ls p0 p1 p2 modrm tail htext hls hm hrange hmap hw hpp hmod hb
  let e : EvexBytes := ⟨p0, p1, p2, 0x4E#8, modrm⟩
  obtain ⟨r, hsrc⟩ : ∃ r, e.Spells (.reg r) tail := by
    simp only [EvexBytes.Spells, ← readSrc_eq_some_iff, readSrc, hmod, e, if_pos]
    exact ⟨_, rfl⟩
  refine step_eq_invalidOpcode_of_reserved (e := e) htext (EvexBytes.foreign_eq_none_iff.2 ⟨hm, hmap, hw, hpp, rfl⟩)
    hsrc (Or.inr ?_) (Nat.add_le_add_right hls 6) hrange
  simp [EvexBytes.reserved, e, hmod, hb]

/-- Settles O8: the forbidden byte is counted, and makes the instruction behind it undefined. -/
theorem forbiddenLegacyByteRaisesInvalidOpcode : Obligations.ForbiddenLegacyByteRaisesInvalidOpcode := by
  intro s b i rest htext hwf hm hb hlen hrange
  have hforbidden : forbiddenByte s.mode b = true := by simpa [forbiddenByte_iff] using hb
  exact step_eq_invalidOpcode (by rw [htext, decode_forbidden_cons_encode hforbidden hwf hm]) hlen hrange

/-- Settles O10: the rejections in the order of R109 steps 2 and 3. -/
theorem foreignEncodingsRefused : Obligations.ForeignEncodingsRefused := by
  intro s ls b rest htext hls hb
  refine ⟨fun h62 => step_eq_notVrsqrt14pd (by rw [htext, decode_eq_notEvex hls hb h62]) (by decide), ?_⟩
  rintro p0 p1 p2 op modrm tail rfl rfl
  have hrefused : ∀ r, EvexBytes.foreign s.mode ⟨p0, p1, p2, op, modrm⟩ = some r → r ≠ .outOfBytes →
      step s = .refused (.notVrsqrt14pd r) := fun r hr hne =>
    step_eq_notVrsqrt14pd (by rw [htext]; exact decode_eq_rejected hls hr tail) hne
  refine ⟨fun hm hp0 => hrefused _ (if_pos ⟨hm, hp0⟩) (by decide), fun hm => ?_⟩
  have hevex : ¬(s.mode ≠ .mode64 ∧ p0.extractLsb' 6 2 ≠ 3#2) := by tauto
  refine ⟨fun hreserved => hrefused _ ?_ (by decide), fun hp0 hp1 hother => hrefused _ ?_ (by decide)⟩
  · rw [EvexBytes.foreign, if_neg hevex, if_pos hreserved]
  · rw [EvexBytes.foreign, if_neg hevex, if_neg (by simp [hp0, hp1]), if_pos hother]

/-- Settles O11: the bytes end before the instruction does. -/
theorem textThatEndsIsRefused : Obligations.TextThatEndsIsRefused := by
  intro s i more h hmore hwf hm
  rw [step, decode_eq_outOfBytes_of_encode h hmore hwf hm]

/-! ## The text at `pc` -/

/-- In every mode the low half of an address of the text rises by one from byte to byte. -/
theorem State.setWidth_textAddr (s : State) (i : Nat) :
    (s.textAddr i).setWidth 32 = (s.textAddr 0).setWidth 32 + BitVec.ofNat 32 i := by
  unfold State.textAddr
  cases s.mode <;> simp [BitVec.setWidth_add]

/-- Different bytes among the first 2^32 of the text lie at different addresses. -/
theorem State.textAddr_inj {s : State} {i j : Nat} (hi : i < 2 ^ 32) (hj : j < 2 ^ 32)
    (h : s.textAddr i = s.textAddr j) : i = j := by
  have hlow : BitVec.ofNat 32 i = BitVec.ofNat 32 j := by
    have := congrArg (BitVec.setWidth 32) h
    rwa [State.setWidth_textAddr, State.setWidth_textAddr s j, BitVec.add_right_inj] at this
  have := congrArg BitVec.toNat hlow
  rwa [BitVec.toNat_ofNat, BitVec.toNat_ofNat, Nat.mod_eq_of_lt hi, Nat.mod_eq_of_lt hj] at this

/-- The bytes that run without a gap from byte `i` of the text on are read, up to the fuel. -/
theorem State.prefix_textFrom {s : State} {bs : List Byte} {fuel i : Nat} (hfuel : bs.length ≤ fuel)
    (h : ∀ (k : Nat) (hk : k < bs.length), s.ordinary? (s.textAddr (i + k)) = some bs[k]) :
    bs <+: s.textFrom fuel i := by
  induction bs generalizing fuel i with
  | nil => exact List.nil_prefix
  | cons b bs ih =>
    obtain ⟨fuel, rfl⟩ : ∃ n, fuel = n + 1 := ⟨fuel - 1, by simp at hfuel; omega⟩
    have hb : s.ordinary? (s.textAddr i) = some b := h 0 (by simp)
    rw [State.textFrom, hb]
    refine List.cons_prefix_cons.2 ⟨rfl, ih (by simpa using hfuel) fun k hk => ?_⟩
    rw [Nat.add_assoc, Nat.add_comm 1 k]
    exact h (k + 1) (Nat.succ_lt_succ hk)

/-- An address that has a byte is listed. -/
theorem Memory.mem_of_byte? {m : Memory} {a : Nat} (h : (m.byte? a).isSome = true) : a ∈ m.map Prod.fst := by
  induction m with
  | nil => simp [Memory.byte?] at h
  | cons c m ih =>
    rw [Memory.byte?] at h
    split_ifs at h with hc
    · simp [hc]
    · exact List.mem_cons_of_mem _ (ih h)

/-- A memory lists at least as many cells as different addresses have bytes. -/
theorem Memory.length_le_of_byte? {m : Memory} {l : List Nat} (hl : l.Nodup)
    (h : ∀ a ∈ l, (m.byte? a).isSome = true) : l.length ≤ m.length := by
  have := (List.subperm_of_subset hl fun a ha => Memory.mem_of_byte? (h a ha)).length_le
  simpa using this

/-- Settles O15: the bytes lie at different addresses, so memory lists as many cells and the fuel is enough. -/
theorem textIsTheBytesAtPc : Obligations.TextIsTheBytesAtPc := by
  intro s bs hlen h
  have hnodup : ((List.range bs.length).map fun k => (s.textAddr k).toNat).Nodup := by
    refine List.nodup_range.map_on fun i hi j hj hij => ?_
    rw [List.mem_range] at hi hj
    exact State.textAddr_inj (by omega) (by omega) (BitVec.eq_of_toNat_eq hij)
  have hbytes : ∀ a ∈ (List.range bs.length).map fun k => (s.textAddr k).toNat, (s.mem.byte? a).isSome = true := by
    rintro _ ha
    obtain ⟨k, hk, rfl⟩ := List.mem_map.1 ha
    have hb := h k (List.mem_range.1 hk)
    exact (State.ordinary?_isSome_iff.1 (by rw [hb]; rfl)).2
  have hfuel : bs.length ≤ s.mem.length := by simpa using Memory.length_le_of_byte? hnodup hbytes
  obtain ⟨rest, hrest⟩ := State.prefix_textFrom (i := 0) hfuel (by simpa using h)
  exact ⟨rest, hrest.symm⟩

/-! ## Lengths and entry -/

/-- Settles O12: beside the six bytes every instruction has there are at most five. -/
theorem instructionLengths : Obligations.InstructionLengths := by
  intro i
  have := i.operands.src.nsib_add_ndisp_le
  rw [Laws.encode_length, Operands.length, Src.lengthAfter]
  omega

/-- Settles O9: the seven words are evaluated. -/
theorem specWordsDecode : Obligations.SpecWordsDecode := by
  unfold Obligations.SpecWordsDecode
  decide

/-- The state conditions of #UD fail exactly in a valid, enabled state whose part has the form (60_exceptions.md R193
(f) to (h)). -/
theorem undefinedIn_eq_false_iff {f : Form} {s : State} :
    undefinedIn f s = false ↔ (s.mode = .mode64 ∨ s.mode = .mode32) ∧ s.stateEnabled = true ∧ s.part.avx512f = true ∧
      (f = .zmm ∨ s.part.avx512vl = true) := by
  simp [undefinedIn, State.modeValid, and_assoc, or_comm, imp_iff_not_or]

/-- Zeroing-masking needs a writemask (30_encoding.md R105). -/
theorem maskingWf_iff {o : Operands} : o.maskingWf = true ↔ (o.zeroing = true → o.mask ≠ 0#3) := by
  simp [Operands.maskingWf, imp_iff_not_or]

/-- A stop at entry is the outcome. -/
theorem exec_eq_outcome_of_entryStop {f : Form} {o : Operands} {s : State} {stop : Stop}
    (h : entryStop f o s = some stop) : exec (f.instr o) s = stop.outcome := by
  simp [exec_eq, execVrsqrt14pd, h]

/-- Settles O45: each earlier condition of entry is passed, and the length is looked at before CR0.TS. -/
theorem overlongRaisesGeneralProtection : Obligations.OverlongRaisesGeneralProtection := by
  intro f o s hrange hlong hm henabled hf hvl hk
  have hund : undefinedIn f s = false := undefinedIn_eq_false_iff.2 ⟨hm.imp_right And.left, henabled, hf, hvl⟩
  refine ⟨exec_eq_outcome_of_entryStop (stop := s.raise .instructionTooLong) ?_, rfl, rfl⟩
  obtain hm | ⟨hm, h32⟩ := hm
  · simp [entryStop, hrange, hund, maskingWf_iff.2 hk, hm, hlong]
  · obtain ⟨hlow, h67⟩ : o.lowRegisters = true ∧ o.hasAddressSize = false := by simpa [Operands.fits32] using h32
    simp [entryStop, hrange, hund, maskingWf_iff.2 hk, hlow, h67, hlong]

/-- Settles O47: the refusals in the order of entry. -/
theorem refusedEncodings : Obligations.RefusedEncodings := by
  intro f o s hrange hund
  refine ⟨fun hz hk => ?_, fun hk hm hlow => ?_, fun hk hm hlow h67 => ?_⟩
  · have hwf : o.maskingWf = false := by simp [Operands.maskingWf, hz, hk]
    exact exec_eq_outcome_of_entryStop (stop := .refusal .zeroingWithoutMask) (by simp [entryStop, hrange, hund, hwf])
  · exact exec_eq_outcome_of_entryStop (stop := .refusal .registerNotIn32BitMode)
      (by simp [entryStop, hrange, hund, maskingWf_iff.2 hk, hm, hlow])
  · exact exec_eq_outcome_of_entryStop (stop := .refusal .addressSize16)
      (by simp [entryStop, hrange, hund, maskingWf_iff.2 hk, hm, hlow, h67])

end Sys2Proof.Machine

/-! # Proofs: VRSQRT14PD

The facts of the family 40_vrsqrt14pd.md. An instruction that completes answers `completed` (`exec_instr_eq_next_iff`),
so each statement about results reduces to the elements and the frame of that state, and each statement of independence
to the two states giving the same stops and the same elements (`resultElem_congr`). -/

namespace Sys2Proof.Machine

/-! ## The elements of a completed instruction -/

/-- The instruction of a form completes exactly when it can be entered and its source read, and answers `completed`. -/
theorem exec_instr_eq_next_iff {f : Form} {o : Operands} {s t : State} :
    exec (f.instr o) s = .next t ↔ Enterable f o s ∧ SourceReadable f o s ∧ t = completed f o s := by
  rw [exec_eq_next_iff, Form.instr_form, Form.instr_operands]

/-- A register source can always be read. -/
theorem sourceReadable_of_reg {o : Operands} {r : VecNum} (h : o.src = .reg r) (f : Form) (s : State) :
    SourceReadable f o s := by
  simp [SourceReadable, h]

/-- A register source's element is the register's. -/
theorem sourceElem_of_reg {o : Operands} {r : VecNum} (h : o.src = .reg r) (f : Form) (s : State) (j : Nat) :
    sourceElem f o s j = vecElem (s.getV r) j := by
  simp [sourceElem, h]

/-- Completion writes the elements of the form as the mask says. -/
theorem elementsWritten_completed (f : Form) (o : Operands) (s : State) :
    ElementsWritten (formKl f) f o s (completed f o s) := by
  intro j hj
  rw [completed_elem f o s (hj.trans_le (formKl_le f)), resultElem, if_neg (Nat.not_le.2 hj)]
  simp only [maskBit_eq_true_iff]

/-- A bit of a register is a bit of its element. -/
theorem getLsbD_eq_getLsbD_vecElem (w : BitVec Config.maxvl) (i : Nat) :
    w.getLsbD i = (vecElem w (i / 64)).getLsbD (i % 64) := by
  simp [vecElem, Nat.mod_lt, Nat.div_add_mod]

/-- The elements of the destination at and above VL are 0 after completion. -/
theorem completed_elem_of_ge (f : Form) (o : Operands) (s : State) {j : Nat} (h : formKl f ≤ j) :
    vecElem ((completed f o s).getV o.dest) j = 0#64 := by
  by_cases hj : j < 8
  · rw [completed_elem f o s hj, resultElem, if_pos h]
  · exact vecElem_of_ge _ (Nat.not_lt.1 hj)

/-- The bits of the destination at and above VL are 0 after completion. -/
theorem completed_getLsbD_of_ge (f : Form) (o : Operands) (s : State) {i : Nat} (h : formVl f ≤ i) :
    ((completed f o s).getV o.dest).getLsbD i = false := by
  have hj : formKl f ≤ i / 64 := by
    rw [formVl] at h
    omega
  rw [getLsbD_eq_getLsbD_vecElem, completed_elem_of_ge f o s hj, BitVec.getLsbD_zero]

/-- A field of the destination at or above VL is 0 after completion. -/
theorem completed_extractLsb'_of_ge (f : Form) (o : Operands) (s : State) {k : Nat} (n : Nat) (h : formVl f ≤ k) :
    ((completed f o s).getV o.dest).extractLsb' k n = 0#n := by
  ext i hi
  rw [BitVec.getElem_extractLsb', completed_getLsbD_of_ge f o s (h.trans (Nat.le_add_right k i)), BitVec.getElem_zero]

/-! ## Completion and results -/

/-- Settles O20: the completed state of the 128-bit form. -/
theorem xmm128Completes : Obligations.Xmm128Completes := fun o s henter hread =>
  ⟨completed .xmm o s, exec_instr_eq_next_iff.2 ⟨henter, hread, rfl⟩, completed_pc _ _ _,
    elementsWritten_completed .xmm o s, completed_extractLsb'_of_ge .xmm o s _ le_rfl, completed_same _ _ _⟩

/-- Settles O21: the completed state of the 256-bit form. -/
theorem ymm256Completes : Obligations.Ymm256Completes := fun o s henter hread =>
  ⟨completed .ymm o s, exec_instr_eq_next_iff.2 ⟨henter, hread, rfl⟩, completed_pc _ _ _,
    elementsWritten_completed .ymm o s, completed_extractLsb'_of_ge .ymm o s _ le_rfl, completed_same _ _ _⟩

/-- Settles O22: the completed state of the 512-bit form. -/
theorem zmm512Completes : Obligations.Zmm512Completes := fun o s henter hread =>
  ⟨completed .zmm o s, exec_instr_eq_next_iff.2 ⟨henter, hread, rfl⟩, completed_pc _ _ _,
    elementsWritten_completed .zmm o s, completed_same _ _ _⟩

/-- Settles O23: a register source stops nothing, and its elements are those before the write. -/
theorem registerSourceResult : Obligations.RegisterSourceResult := by
  intro f o r s hsrc henter
  refine ⟨_, exec_instr_eq_next_iff.2 ⟨henter, sourceReadable_of_reg hsrc f s, rfl⟩, fun j hj hsel => ?_⟩
  rw [elementsWritten_completed f o s j hj, if_pos hsel, sourceElem_of_reg hsrc]

/-- Settles O26, from the bits of the completed state. -/
theorem upperBitsAreZeroed : Obligations.UpperBitsAreZeroed := by
  intro f o s t h i hi
  obtain ⟨-, -, rfl⟩ := exec_instr_eq_next_iff.1 h
  exact completed_getLsbD_of_ge f o s hi

/-- Settles O27: the element is not selected and not zeroed. -/
theorem mergingKeepsMaskedElements : Obligations.MergingKeepsMaskedElements := by
  intro f o s t h hz hk j hj hbit
  obtain ⟨-, -, rfl⟩ := exec_instr_eq_next_iff.1 h
  rw [elementsWritten_completed f o s j hj, if_neg (by simp [hk, hbit]), if_neg (by simp [hz])]

/-- Settles O28: zeroing names a writemask (30_encoding.md R105), so the element is not selected. -/
theorem zeroingClearsMaskedElements : Obligations.ZeroingClearsMaskedElements := by
  intro f o s t h hz j hj hbit
  obtain ⟨henter, -, rfl⟩ := exec_instr_eq_next_iff.1 h
  rw [elementsWritten_completed f o s j hj, if_neg (by simp [henter.masking hz, hbit]), if_pos hz]

/-! ## Independence -/

/-- Two states with one MXCSR give the same elements where they agree on the mask, on the selected elements of the
source and on the other elements of the destination. -/
theorem resultElem_congr {f : Form} {o : Operands} {s t : State} (hmx : t.mxcsr = s.mxcsr)
    (hmask : ∀ j < formKl f, maskBit o t j = maskBit o s j)
    (hsrc : ∀ j < formKl f, maskBit o s j = true → sourceElem f o t j = sourceElem f o s j)
    (hdest : ∀ j < formKl f, vecElem (t.getV o.dest) j = vecElem (s.getV o.dest) j) :
    resultElem f o t = resultElem f o s := by
  funext j
  by_cases hj : formKl f ≤ j
  · simp [resultElem, hj]
  · have hlt := Nat.not_le.1 hj
    cases hsel : maskBit o s j with
    | true => simp [resultElem, hj, hmask j hlt, hsel, hsrc j hlt hsel, hmx]
    | false => simp [resultElem, hj, hmask j hlt, hsel, hdest j hlt]

/-- Which bytes are accessed depends on the mask bits of the form's elements alone. -/
theorem accessedBytes_withOpmask {f : Form} {o : Operands} {s : State} {m : Opmasks} (bcast : Bool)
    (h : ∀ j < formKl f, maskBit o { s with opmask := m } j = maskBit o s j) :
    accessedBytes f o bcast { s with opmask := m } = accessedBytes f o bcast s := by
  cases bcast with
  | true =>
    have hany : (List.range (formKl f)).any (maskBit o { s with opmask := m }) =
        (List.range (formKl f)).any (maskBit o s) := by
      rw [Bool.eq_iff_iff, List.any_eq_true, List.any_eq_true]
      simp only [List.mem_range]
      exact exists_congr fun j => and_congr_right fun hj => by rw [h j hj]
    simp only [accessedBytes, if_true, hany]
  | false =>
    refine List.filter_congr fun i hi => ?_
    rw [h (i / 8) (by have := List.mem_range.1 hi; omega)]

/-- Whether a memory operand is read depends on the opmask registers through the accessed bytes alone. -/
theorem memoryStop_withOpmask {f : Form} {o : Operands} {bcast : Bool} {s : State} {m : Opmasks} (a : Addr)
    (h : accessedBytes f o bcast { s with opmask := m } = accessedBytes f o bcast s) :
    memoryStop f o bcast a { s with opmask := m } = memoryStop f o bcast a s := by
  have hlow := State.lowestUnadmitted_congr (s := s) (t := { s with opmask := m }) rfl rfl
  simp only [memoryStop, h, hlow]
  rfl

/-- Whether the source is read depends on the mask bits of the form's elements alone. -/
theorem sourceStop_withOpmask {f : Form} {o : Operands} {s : State} {m : Opmasks}
    (h : ∀ j < formKl f, maskBit o { s with opmask := m } j = maskBit o s j) :
    sourceStop f o { s with opmask := m } = sourceStop f o s := by
  unfold sourceStop
  cases o.src with
  | reg r => rfl
  | mem bcast a => exact memoryStop_withOpmask a (accessedBytes_withOpmask bcast h)

/-- With the same mask bits for the form's elements the completed state is the same but for the opmask registers. -/
theorem completed_withOpmask {f : Form} {o : Operands} {s : State} {m : Opmasks}
    (h : ∀ j < formKl f, maskBit o { s with opmask := m } j = maskBit o s j) :
    completed f o { s with opmask := m } = { completed f o s with opmask := m } := by
  have hres : resultElem f o { s with opmask := m } = resultElem f o s :=
    resultElem_congr rfl h (fun _ _ _ => rfl) (fun _ _ => rfl)
  rw [completed, hres]
  rfl

/-- Settles O31: entry reads no opmask register, and the rest reads the mask bits of the form's elements alone. -/
theorem onlyNamedMaskBitsMatter : Obligations.OnlyNamedMaskBitsMatter := by
  intro f o s m h
  have hmask (j : Nat) (hj : j < formKl f) : maskBit o { s with opmask := m } j = maskBit o s j := by
    by_cases hk : o.mask = 0#3
    · simp [maskBit, hk]
    · simp [maskBit, State.kBit, h hk j hj]
  have hentry : entryStop f o { s with opmask := m } = entryStop f o s := rfl
  simp only [exec_eq, Form.instr_form, Form.instr_operands, execVrsqrt14pd, hentry, sourceStop_withOpmask hmask,
    completed_withOpmask hmask]
  cases entryStop f o s with
  | some stop => simp
  | none =>
    cases sourceStop f o s with
    | some stop => simp
    | none => rfl

/-- Entry reads no vector register. -/
theorem Enterable.setV {f : Form} {o : Operands} {s : State} (h : Enterable f o s) (r : VecNum)
    (w : BitVec Config.maxvl) : Enterable f o (s.setV r w) :=
  ⟨h.mode, h.enabled, h.avx512f, h.avx512vl, h.ts, h.text, h.length, h.masking, h.fits⟩

/-- With another value in the source register that has the same selected elements, and that leaves the destination's
elements as they are, an instruction completes with the same destination and `pc`. -/
theorem exec_setV_source {f : Form} {o : Operands} {r : VecNum} {s t : State} {w : BitVec Config.maxvl}
    (hreg : o.src = .reg r) (h : exec (f.instr o) s = .next t)
    (hsrc : ∀ j < formKl f, maskBit o s j = true → vecElem w j = vecElem (s.getV r) j)
    (hdest : ∀ j < formKl f, vecElem ((s.setV r w).getV o.dest) j = vecElem (s.getV o.dest) j) :
    ∃ u, exec (f.instr o) (s.setV r w) = .next u ∧ u.getV o.dest = t.getV o.dest ∧ u.pc = t.pc := by
  obtain ⟨henter, -, rfl⟩ := exec_instr_eq_next_iff.1 h
  have hres : resultElem f o (s.setV r w) = resultElem f o s :=
    resultElem_congr (State.setV_mxcsr s r w) (fun j _ => by simp [maskBit])
      (fun j hj hsel => by simp [sourceElem_of_reg hreg, hsrc j hj hsel]) hdest
  exact ⟨_, exec_instr_eq_next_iff.2 ⟨henter.setV r w, sourceReadable_of_reg hreg f _, rfl⟩,
    by simp [completed, hres], by simp⟩

/-- Settles O32: the elements below VL are the same in source and destination, and the rest is the frame and the zeroed
bits of the completed state. -/
theorem sourceBitsAboveVlDoNotMatter : Obligations.SourceBitsAboveVlDoNotMatter := by
  intro f o r s t w hreg hw h
  obtain ⟨-, -, rfl⟩ := exec_instr_eq_next_iff.1 h
  refine ⟨exec_setV_source hreg h (fun j hj _ => hw j hj) fun j hj => ?_, (completed_same f o s).v r, ?_⟩
  · by_cases hd : o.dest = r
    · simpa [hd] using hw j hj
    · rw [State.getV_setV_ne s w hd]
  · rintro rfl i hi
    exact completed_getLsbD_of_ge f o s hi

/-- Settles O33: only selected elements of the source are read, and the destination is another register. -/
theorem maskedOffElementsDoNotEnterTheResult : Obligations.MaskedOffElementsDoNotEnterTheResult := by
  intro f o r s t w hreg hne hw h
  refine exec_setV_source hreg h (fun j hj hsel => hw j hj (maskBit_eq_true_iff.1 hsel)) fun j _ => ?_
  rw [State.getV_setV_ne s w hne.symm]

end Sys2Proof.Machine

/-! # Proofs: the numerics of an element

The facts of the family 41_element_numerics.md. The decision table is one lemma for each case of R160 over the classes
of R161. The statements about the approximation follow from `rsqrt14F64_admissible` and from the value of a positive
element being its magnitude in units of 2^-1074 (`elemValue_eq_scaled`). -/

namespace Sys2Proof.Machine

/-! ## The classes (R161) -/

/-- A finite element that is not zero is in no other class. -/
theorem not_nan_zero_inf_of_normal_or_denormal {e : Elem} (h : isNormal e = true ∨ isDenormal e = true) :
    isNan e = false ∧ isZero e = false ∧ isInf e = false := by
  simp only [isNormal, isDenormal, isNan, isZero, isInf, Bool.and_eq_true, Bool.and_eq_false_iff, bne_iff_ne,
    beq_iff_eq, beq_eq_false_iff_ne] at *
  rcases h with ⟨h0, hmax⟩ | ⟨h0, hfrac⟩
  · exact ⟨.inl hmax, .inl h0, .inl hmax⟩
  · rw [h0]
    exact ⟨.inl (by decide), .inr hfrac, .inl (by decide)⟩

theorem isDenormal_eq_false_of_normal {e : Elem} (h : isNormal e = true) : isDenormal e = false := by
  simp only [isNormal, isDenormal, Bool.and_eq_true, Bool.and_eq_false_iff, bne_iff_ne, beq_eq_false_iff_ne] at *
  exact .inl h.1

theorem isPositiveFinite_iff {e : Elem} :
    isPositiveFinite e = true ↔ signBit e = false ∧ (isNormal e = true ∨ isDenormal e = true) := by
  simp [isPositiveFinite]

/-! ## The remaining cases of RSQRT14 (R162 to R165) -/

/-- Quieting sets bit 51 and keeps every other bit (R162). -/
theorem getLsbD_or_quietBit (e : Elem) (i : Nat) :
    (e ||| 0x0008000000000000#64).getLsbD i = if i = 51 then true else e.getLsbD i := by
  rw [show 0x0008000000000000#64 = BitVec.twoPow 64 51 by decide, BitVec.getLsbD_or, BitVec.getLsbD_twoPow]
  by_cases h : i = 51
  · simp [h]
  · simp [h, Ne.symm h]

/-- With DAZ a denormal becomes the zero of its sign (R163). -/
theorem flushInput_denormal {e : Elem} (h : isDenormal e = true) :
    flushInput e true = if signBit e then 0x8000000000000000#64 else 0#64 := by
  rw [flushInput, h, show 0x8000000000000000#64 = BitVec.twoPow 64 63 by decide, BitVec.and_twoPow]
  rfl

/-- With DAZ a denormal gives the infinity of its sign (R163, R164). -/
theorem rsqrt14_denormal_daz {e : Elem} (h : isDenormal e = true) :
    rsqrt14 e true = if signBit e then 0xFFF0000000000000#64 else 0x7FF0000000000000#64 := by
  obtain ⟨hnan, -, -⟩ := not_nan_zero_inf_of_normal_or_denormal (.inr h)
  rw [rsqrt14, hnan, flushInput_denormal h]
  cases signBit e <;> rfl

/-- A negative number that is not taken as a zero gives QNaN_Indefinite (R165). -/
theorem rsqrt14_negative {e : Elem} {daz : Bool} (h : isNormal e = true ∨ isDenormal e = true)
    (hs : signBit e = true) (hd : isDenormal e = false ∨ daz = false) : rsqrt14 e daz = 0xFFF8000000000000#64 := by
  obtain ⟨hnan, hzero, -⟩ := not_nan_zero_inf_of_normal_or_denormal h
  simp [rsqrt14, flushInput_eq hd, hnan, hzero, hs, Config.qnanIndefinite]

/-! ## The class of the approximation (R175) -/

theorem rsqrt14F64_normal {e : Elem} (h : isPositiveFinite e = true) :
    signBit (rsqrt14F64 e) = false ∧ isNormal (rsqrt14F64 e) = true := by
  simpa using (rsqrt14F64_admissible h).1

/-- Settles O19: the approximation is admissible, and a normal number is in no other class. -/
theorem approximationIsPositiveNormal : Obligations.ApproximationIsPositiveNormal := by
  intro e h
  obtain ⟨hsign, hnormal⟩ := rsqrt14F64_normal h
  obtain ⟨hnan, hzero, hinf⟩ := not_nan_zero_inf_of_normal_or_denormal (.inl hnormal)
  exact ⟨hnormal, hsign, hzero, isDenormal_eq_false_of_normal hnormal, hinf, hnan⟩

/-- Settles O16: each row is the case of R160 that its class falls under. -/
theorem elementDecisionTable : Obligations.ElementDecisionTable := by
  intro e daz
  refine ⟨fun hnan hq => ?qnan, fun hnan _ i _ => ?snan, ?posZero, ?negZero, ?posFlushed, ?negFlushed,
    fun hd hs hdaz => ?posDenormal, fun hd hs hdaz => rsqrt14_negative (.inr hd) hs (.inr hdaz),
    fun hn hs => ?posNormal, fun hn hs => rsqrt14_negative (.inl hn) hs (.inl (isDenormal_eq_false_of_normal hn)),
    ?posInf, ?negInf⟩
  case qnan =>
    rw [rsqrt14_nan hnan]
    refine BitVec.eq_of_getLsbD_eq fun i _ => ?_
    rw [getLsbD_or_quietBit]
    split_ifs with h51
    · rw [h51, hq]
    · rfl
  case snan => rw [rsqrt14_nan hnan, getLsbD_or_quietBit]
  case posFlushed =>
    rintro hd hs rfl
    simp [rsqrt14_denormal_daz hd, hs]
  case negFlushed =>
    rintro hd hs rfl
    simp [rsqrt14_denormal_daz hd, hs]
  case posDenormal =>
    have h := isPositiveFinite_iff.2 ⟨hs, .inr hd⟩
    exact ⟨rsqrt14_positive h (.inr hdaz), (rsqrt14F64_normal h).2⟩
  case posNormal =>
    exact rsqrt14_positive (isPositiveFinite_iff.2 ⟨hs, .inl hn⟩) (.inl (isDenormal_eq_false_of_normal hn))
  -- Zeros and infinities are single patterns: the definition evaluates.
  all_goals
    rintro rfl
    cases daz <;> decide

/-! ## The value of a positive element (R161) -/

/-- The value of an element with sign 0 is its magnitude in units of 2^-1074. -/
theorem elemValue_eq_scaled {e : Elem} (h : signBit e = false) :
    elemValue e = (scaled e : ℚ) * 2 ^ (-1074 : ℤ) := by
  rw [elemValue, scaled, h]
  by_cases h0 : expField e = 0#11
  · simp [h0]
  · obtain ⟨m, hm⟩ := Nat.exists_eq_succ_of_ne_zero fun hz => h0 (BitVec.eq_of_toNat_eq hz)
    have hpow : (2 : ℚ) ^ (((m.succ : ℕ) : ℤ) - 1023) = 2 ^ 52 * 2 ^ m * 2 ^ (-1074 : ℤ) := by
      rw [← zpow_natCast, ← zpow_natCast, ← zpow_add₀ two_ne_zero, ← zpow_add₀ two_ne_zero]
      congr 1
      push_cast
      ring
    rw [if_neg h0, if_neg h0, hm, hpow, Nat.succ_sub_one]
    generalize (2 : ℚ) ^ (-1074 : ℤ) = u
    push_cast
    ring

/-! ## The relative error (R172) -/

/-- The bounds of R172 without the root: |r - 1/√x| < d/√x follows from (1 - d)^2 < r^2 x < (1 + d)^2. -/
theorem abs_sub_one_div_sqrt_lt {x r d : ℝ} (hx : 0 < x) (hr : 0 ≤ r) (hd : 0 ≤ d)
    (hlow : (1 - d) ^ 2 < r ^ 2 * x) (hup : r ^ 2 * x < (1 + d) ^ 2) :
    |r - 1 / √x| < d * (1 / √x) := by
  have hsqrt : 0 < √x := Real.sqrt_pos.2 hx
  have hsq : r ^ 2 * x = (r * √x) ^ 2 := by rw [mul_pow, Real.sq_sqrt hx.le]
  rw [hsq] at hlow hup
  have h1 : 1 - d < r * √x := lt_of_pow_lt_pow_left₀ 2 (by positivity) hlow
  have h2 : r * √x < 1 + d := lt_of_pow_lt_pow_left₀ 2 (by positivity) hup
  have hfac : r - 1 / √x = (r * √x - 1) * (1 / √x) := by field_simp
  rw [hfac, abs_mul, abs_of_pos (one_div_pos.2 hsqrt)]
  exact mul_lt_mul_of_pos_right (abs_lt.2 ⟨by linarith, by linarith⟩) (one_div_pos.2 hsqrt)

/-- r^2 x in units of 2^-3222, the cube of the unit of magnitudes. -/
theorem elemValue_sq_mul_eq_scaled {e r : Elem} (he : signBit e = false) (hr : signBit r = false) :
    elemValue r ^ 2 * elemValue e * 2 ^ 3222 = (scaled r ^ 2 * scaled e : ℕ) := by
  have hunit : ((2 : ℚ) ^ (-1074 : ℤ)) ^ 3 * 2 ^ 3222 = 1 := by
    rw [← zpow_natCast, ← zpow_natCast, ← zpow_mul, ← zpow_add₀ two_ne_zero]
    norm_num
  rw [elemValue_eq_scaled hr, elemValue_eq_scaled he]
  generalize (2 : ℚ) ^ (-1074 : ℤ) = u, (2 : ℚ) ^ 3222 = T at hunit ⊢
  push_cast
  linear_combination (scaled r ^ 2 * scaled e : ℚ) * hunit

/-- The bounds of `Admissible` as bounds on r^2 x. -/
theorem Admissible.sq_mul_bounds {e r : Elem} (he : signBit e = false) (hr : signBit r = false)
    (h : Admissible e r) :
    (1 - 2 ^ (-14 : ℤ)) ^ 2 < elemValue r ^ 2 * elemValue e ∧
      elemValue r ^ 2 * elemValue e < (1 + 2 ^ (-14 : ℤ)) ^ 2 := by
  obtain ⟨-, hlow, hup⟩ := h
  have hT : (0 : ℚ) < 2 ^ 3222 := by positivity
  rw [← Nat.cast_lt (α := ℚ), Nat.cast_mul (scaled r ^ 2 * scaled e), ← elemValue_sq_mul_eq_scaled he hr,
    Nat.cast_mul _ (2 ^ 3222), Nat.cast_pow 2 3222, Nat.cast_ofNat] at hlow hup
  generalize (2 : ℚ) ^ 3222 = T at hT hlow hup
  constructor <;> refine lt_of_mul_lt_mul_right ?_ hT.le
  · norm_num at hlow ⊢
    linarith
  · norm_num at hup ⊢
    linarith

/-- Settles O17: the approximation is admissible, and the value is the same rational in ℚ and ℝ. -/
theorem relativeErrorBound : Obligations.RelativeErrorBound := by
  intro e h
  have hsign := (isPositiveFinite_iff.1 h).1
  have hrsign := (rsqrt14F64_normal h).1
  have hpos : 0 < elemValue e := by
    have := scaled_pos h
    rw [elemValue_eq_scaled hsign]
    positivity
  have hroot : 0 ≤ elemValue (rsqrt14F64 e) := by
    rw [elemValue_eq_scaled hrsign]
    positivity
  obtain ⟨hlow, hup⟩ := (rsqrt14F64_admissible h).sq_mul_bounds hsign hrsign
  rw [← Rat.cast_lt (K := ℝ)] at hlow hup
  push_cast at hlow hup
  exact abs_sub_one_div_sqrt_lt (Rat.cast_pos.2 hpos) (Rat.cast_nonneg.2 hroot) (by positivity) hlow hup

/-! ## Exact powers (R173) -/

/-- An element of value 2^-2n is 2^(1074 - 2n) units of 2^-1074. -/
theorem scaled_of_elemValue_eq {e : Elem} {n : ℤ} (h : isPositiveFinite e = true)
    (hv : elemValue e = (2 : ℚ) ^ (-2 * n)) :
    ∃ k : ℕ, (k : ℤ) = 1074 - 2 * n ∧ k < 2098 ∧ scaled e = 2 ^ k := by
  have hs : (scaled e : ℚ) = 2 ^ (1074 - 2 * n) := by
    rw [elemValue_eq_scaled (isPositiveFinite_iff.1 h).1, ← eq_div_iff (by positivity),
      ← zpow_sub₀ two_ne_zero] at hv
    rw [hv]
    congr 1
    ring
  have hk : 0 ≤ 1074 - 2 * n := by
    have h1 : (2 : ℚ) ^ (0 : ℤ) ≤ 2 ^ (1074 - 2 * n) := by
      rw [← hs, zpow_zero]
      exact_mod_cast scaled_pos h
    exact (zpow_le_zpow_iff_right₀ one_lt_two).1 h1
  obtain ⟨k, hk⟩ := Int.eq_ofNat_of_zero_le hk
  rw [hk, zpow_natCast] at hs
  have hs' : scaled e = 2 ^ k := by exact_mod_cast hs
  have hlt := scaled_lt h
  rw [hs', Nat.pow_lt_pow_iff_right Nat.one_lt_two] at hlt
  exact ⟨k, hk.symm, hlt, hs'⟩

/-- The approximation of 2^k units, k even, is 2^(1611 - k/2) units. -/
theorem scaled_rsqrt14F64 {e : Elem} {k : ℕ} (hs : scaled e = 2 ^ k) (hlt : k < 2098) (hk : k % 2 = 0) :
    scaled (rsqrt14F64 e) = 2 ^ (1611 - k / 2) := by
  have hlog : Nat.log2 (scaled e) = k := by rw [hs, Nat.log2_two_pow]
  have heven : isEvenPower e = true := by simp [isEvenPower, hs, hk]
  rw [rsqrt14F64, if_pos heven, evenPowerRoot, hlog, ← Nat.add_zero (_ * 2 ^ 52),
    scaled_ofFields (by omega) (by omega) (by positivity), Nat.add_zero, ← pow_add]
  congr 1
  omega

/-- Settles O18: 2^-2n is 2^(1074 - 2n) units of 2^-1074, and its approximation 2^(1074 + n) units. -/
theorem evenPowersAreExact : Obligations.EvenPowersAreExact := by
  intro e n h hv
  obtain ⟨k, hk, hlt, hs⟩ := scaled_of_elemValue_eq h hv
  rw [elemValue_eq_scaled (rsqrt14F64_normal h).1, scaled_rsqrt14F64 hs hlt (by omega), Nat.cast_pow,
    Nat.cast_ofNat, ← zpow_natCast, ← zpow_add₀ two_ne_zero]
  congr 1
  omega

end Sys2Proof.Machine

/-! # Proofs: exceptions

The facts of the family 60_exceptions.md: which condition stops an instruction, which fault or refusal it is, and what a
fault reports. Statements about the state go through `undefinedIn_eq_true_iff` and the stop at entry it gives, those
about bytes that raise #UD through `decode_eq_undefined`, which gives them the length of R100. -/

namespace Sys2Proof

/-! ## Undefined bytes and their length -/

/-- The length of the source that is spelled is R100's, read off ModRM and the byte after it. -/
theorem Src.Spelled.lengthAfter_eq_ilen {src : Src} {x b bcast : Bool} {modrm : Byte} {bs : List Byte}
    (h : src.Spelled x b bcast (modrm.extractLsb' 6 2) (modrm.extractLsb' 0 3) bs) (n : Nat) :
    src.lengthAfter n = Machine.ilen n modrm (bs.headD 0#8) := by
  obtain ⟨hwf, -, -, -, hmod, hrm, htail⟩ := h
  rw [Src.lengthAfter, Machine.ilen, ← hmod, ← hrm]
  cases src with
  | reg r => rfl
  | mem bcast a =>
    cases a with
    | base g d x =>
      obtain ⟨hsib, hdirect⟩ := Src.wf_base_iff.1 hwf
      cases d <;>
        simp [Src.modField, Src.rmField, Disp.modField, Src.nsib, Src.ndisp, Disp.size, hsib, not_and.1 hdirect]
    | sib sc i g d =>
      obtain ⟨rest, rfl⟩ := htail
      obtain ⟨-, -, hbase⟩ := eq_sibByte_iff.1 (rfl : sibByte sc i (g.extractLsb' 0 3) = _)
      cases d <;> simp [Src.modField, Src.rmField, Disp.modField, Src.nsib, Src.ndisp, Disp.size, Src.tail, hbase,
        not_and.1 (Src.wf_sib_iff.1 hwf)]
    | sibNoBase sc i d b =>
      obtain ⟨rest, rfl⟩ := htail
      obtain ⟨-, -, hbase⟩ := eq_sibByte_iff.1 (rfl : sibByte sc i 5#3 = _)
      simp [Src.modField, Src.rmField, Src.nsib, Src.ndisp, Src.tail, hbase]
    | direct d x b => rfl

/-- As many bytes after ModRM as R100 asks for spell a source: it is the one they spell with zeros behind them. -/
theorem EvexBytes.exists_spells_of_ilen_le {e : EvexBytes} {tail : List Byte} {n : Nat}
    (h : Machine.ilen n e.modrm (tail.headD 0#8) ≤ n + 6 + tail.length) : ∃ src, e.Spells src tail := by
  obtain ⟨src, hsrc⟩ := e.exists_spells (tail := tail ++ List.replicate 5 0#8) (by simp)
  have hhead : (tail ++ List.replicate 5 0#8).headD 0#8 = tail.headD 0#8 := by cases tail <;> rfl
  have hlen := hsrc.lengthAfter_eq_ilen n
  rw [hhead, Src.lengthAfter] at hlen
  have hfits : src.tail.length ≤ tail.length := by
    rw [Laws.tail_length]
    omega
  exact ⟨src, { hsrc with tail := List.prefix_of_prefix_length_le hsrc.tail (List.prefix_append _ _) hfits }⟩

/-- A byte that may precede 62H is counted, and raises #UD when it is forbidden (30_encoding.md R98). -/
theorem scanLegacy_cons_of_preceding {m : Mode} {b : Byte} (h : Machine.precedingByte m b = true) (bs : List Byte) :
    (scanLegacy m (b :: bs)).count = (scanLegacy m bs).count + 1 ∧
      (scanLegacy m (b :: bs)).undefined = (Machine.forbiddenByte m b || (scanLegacy m bs).undefined) := by
  cases hb : legacyByte m b with
  | allowed p =>
    have hallowed : Machine.forbiddenByte m b = false := by
      simp [← Bool.not_eq_true, ← legacyByte_eq_undefined_iff, hb]
    simp [scanLegacy, hb, hallowed]
  | undefined => simp [scanLegacy, hb, legacyByte_eq_undefined_iff.1 hb]
  | opcode => simp [legacyByte_eq_opcode_iff, h] at hb

/-- All bytes before 62H are counted, and a forbidden one raises #UD wherever it stands (log entry 31). -/
theorem scanLegacy_append_preceding {m : Mode} {ls : List Byte} (h : ∀ b ∈ ls, Machine.precedingByte m b = true)
    (bs : List Byte) :
    (scanLegacy m (ls ++ bs)).count = ls.length + (scanLegacy m bs).count ∧
      (scanLegacy m (ls ++ bs)).undefined = (ls.any (Machine.forbiddenByte m) || (scanLegacy m bs).undefined) := by
  induction ls with
  | nil => simp
  | cons b ls ih =>
    obtain ⟨hb, hls⟩ := List.forall_mem_cons.1 h
    obtain ⟨hcount, hund⟩ := scanLegacy_cons_of_preceding hb (ls ++ bs)
    obtain ⟨ihcount, ihund⟩ := ih hls
    rw [List.cons_append, hcount, hund, ihcount, ihund]
    exact ⟨Nat.add_right_comm _ _ _, (Bool.or_assoc _ _ _).symm⟩

/-- An encoding of the space that is reserved, or has a forbidden byte before it, is undefined with R100's length
(60_exceptions.md R193 (a) to (e)). -/
theorem decode_eq_undefined {m : Mode} {ls : List Byte} {e : EvexBytes} {tail : List Byte}
    (hls : ∀ x ∈ ls, Machine.precedingByte m x = true) (hspace : e.foreign m = none)
    (hund : e.p2.extractLsb' 5 2 = 3#2 ∨ e.reserved = true ∨ ∃ x ∈ ls, Machine.forbiddenByte m x = true)
    (henough : Machine.ilen ls.length e.modrm (tail.headD 0#8) ≤ ls.length + 6 + tail.length) :
    decode m (ls ++ 0x62#8 :: e.p0 :: e.p1 :: e.p2 :: e.op :: e.modrm :: tail) =
      .undefined (Machine.ilen ls.length e.modrm (tail.headD 0#8)) := by
  have hevex := scanLegacy_append_evex m [] (e.p0 :: e.p1 :: e.p2 :: e.op :: e.modrm :: tail)
  rw [List.map_nil, List.nil_append] at hevex
  obtain ⟨hcount, hforbidden⟩ :=
    scanLegacy_append_preceding hls (0x62#8 :: e.p0 :: e.p1 :: e.p2 :: e.op :: e.modrm :: tail)
  obtain ⟨src, hsrc⟩ := EvexBytes.exists_spells_of_ilen_le henough
  simp only [hevex, Bool.or_false, List.length_nil, Nat.add_zero] at hcount hforbidden
  rw [← List.any_eq_true, ← hforbidden] at hund
  rw [decode_of_scanLegacy (by rw [scanLegacy_append_rest hls, hevex]), decodeEvex_eq_undefined hspace hsrc hund,
    hcount, hsrc.lengthAfter_eq_ilen]

end Sys2Proof

namespace Sys2Proof.Machine

/-! ## The conditions of the state -/

/-- The modes in which no EVEX-encoded instruction is valid (60_exceptions.md R209). -/
theorem State.modeValid_eq_false_iff {s : State} :
    s.modeValid = false ↔ s.mode = .real ∨ s.mode = .virtual8086 := by
  rw [State.modeValid]
  cases s.mode <;> decide

/-- The bits that enable the extended state (60_exceptions.md R194). -/
theorem State.stateEnabled_iff {s : State} :
    s.stateEnabled = true ↔
      s.cr4Osxsave = true ∧ s.xcr0.extractLsb' 5 3 = 7#3 ∧ s.xcr0.extractLsb' 1 2 = 3#2 := by
  simp [State.stateEnabled, and_assoc]

/-- The extended state is not enabled when one of those bits is clear. -/
theorem State.stateEnabled_eq_false_iff {s : State} :
    s.stateEnabled = false ↔
      s.cr4Osxsave = false ∨ s.xcr0.extractLsb' 5 3 ≠ 7#3 ∨ s.xcr0.extractLsb' 1 2 ≠ 3#2 := by
  rw [← Bool.not_eq_true, State.stateEnabled_iff, not_and_or, not_and_or, Bool.not_eq_true]

/-- The state conditions of #UD (60_exceptions.md R193 (f) to (h)). -/
theorem undefinedIn_eq_true_iff {f : Form} {s : State} :
    undefinedIn f s = true ↔ s.modeValid = false ∨ s.stateEnabled = false ∨ s.part.avx512f = false ∨
      (f ≠ .zmm ∧ s.part.avx512vl = false) := by
  simp [undefinedIn, or_assoc]

/-- Under a state condition of #UD the length decides between #UD and the refusal of the conflict (60_exceptions.md
R201), before anything but the range of the text is looked at. -/
theorem entryStop_of_undefinedIn {f : Form} {o : Operands} {s : State} (hrange : s.textInRange o.length = true)
    (h : undefinedIn f s = true) :
    entryStop f o s = some (if 15 < o.length then .refusal .overlongUndefined else s.raise .invalidOpcode) := by
  simp [entryStop, hrange, h]

/-- Settles O43: each condition is one of `undefinedIn`. -/
theorem disabledStateRaisesInvalidOpcode : Obligations.DisabledStateRaisesInvalidOpcode := by
  intro f o s hrange hlen h
  have hund : undefinedIn f s = true := by
    simpa only [undefinedIn_eq_true_iff, State.modeValid_eq_false_iff, State.stateEnabled_eq_false_iff, or_assoc]
      using h
  refine ⟨exec_eq_outcome_of_entryStop (stop := s.raise .invalidOpcode) ?_, rfl, rfl⟩
  rw [entryStop_of_undefinedIn hrange hund, if_neg (Nat.not_lt.2 hlen)]

/-- Undefined bytes of more than 15 in range are refused (60_exceptions.md R201). -/
theorem step_eq_overlongUndefined {s : State} {n : Nat} (h : decode s.mode s.text = .undefined n) (hn : 15 < n)
    (hrange : s.textInRange n = true) : step s = .refused .overlongUndefined := by
  simp [step, h, State.undefinedEncoding, hrange, maxLength, hn, Stop.outcome]

/-- Settles O44: the state's conditions at entry, the conditions of the bytes in the decoder. -/
theorem overlongUndefinedIsRefused : Obligations.OverlongUndefinedIsRefused := by
  refine ⟨fun f o s hrange hlong h => exec_eq_outcome_of_entryStop (stop := .refusal .overlongUndefined) ?_, ?_⟩
  · rw [entryStop_of_undefinedIn hrange (undefinedIn_eq_true_iff.2 h), if_pos hlong]
  · intro s ls p0 p1 p2 modrm tail htext hls hm hmap hw hpp hund hlong henough hrange
    let e : EvexBytes := ⟨p0, p1, p2, 0x4E#8, modrm⟩
    have hspace : e.foreign s.mode = none := EvexBytes.foreign_eq_none_iff.2 ⟨hm, hmap, hw, hpp, rfl⟩
    have hreserved : e.reserved = true ↔ p1.extractLsb' 3 4 ≠ 15#4 ∨ p2.getLsbD 3 = false ∨
        (modrm.extractLsb' 6 2 = 3#2 ∧ p2.getLsbD 4 = true) := by
      simp [EvexBytes.reserved, e, or_assoc]
    refine step_eq_overlongUndefined ?_ hlong hrange
    rw [htext]
    exact decode_eq_undefined (e := e) hls hspace (by rw [hreserved]; tauto) henough

/-- Settles O58: a completed step has entered its instruction. -/
theorem stepsCompleteOnlyWhenEnabled : Obligations.StepsCompleteOnlyWhenEnabled := by
  intro s t h
  obtain ⟨i, -, henter, -, -⟩ := step_eq_next h
  obtain ⟨hosxsave, hupper, hlower⟩ := State.stateEnabled_iff.1 henter.enabled
  exact ⟨henter.mode, hosxsave, hupper, hlower, henter.avx512f, henter.ts⟩

/-! ## #NM -/

/-- CR0.TS is looked at last: with TS set, the stop is the one there is with TS clear, and #NM where there is none. -/
theorem entryStop_of_cr0Ts {s : State} (h : s.cr0Ts = true) (f : Form) (o : Operands) :
    entryStop f o s = some ((entryStop f o { s with cr0Ts := false }).getD (s.raise .deviceNotAvailable)) := by
  have hrange : State.textInRange { s with cr0Ts := false } o.length = s.textInRange o.length := rfl
  have hund : undefinedIn f { s with cr0Ts := false } = undefinedIn f s := rfl
  simp only [entryStop, h, hrange, hund]
  split_ifs <;> rfl

/-- Settles O46: with TS clear nothing stops the instruction at entry. -/
theorem taskSwitchedRaisesDeviceNotAvailable : Obligations.TaskSwitchedRaisesDeviceNotAvailable := by
  intro f o s henter hts
  refine ⟨exec_eq_outcome_of_entryStop (stop := s.raise .deviceNotAvailable) ?_, rfl, rfl⟩
  rw [entryStop_of_cr0Ts hts, entryStop_eq_none_iff.2 henter, Option.getD_none]

/-! ## #PF -/

/-- The address reported is the lowest one not admitted. -/
theorem State.lowestUnadmitted_eq_some {s : State} {l : List Word} {p : Word} (hp : p ∈ l)
    (hout : s.present p = false) (hlow : ∀ a ∈ l, s.present a = false → p.toNat ≤ a.toNat) :
    s.lowestUnadmitted l = some p := by
  cases h : s.lowestUnadmitted l with
  | none => simp [State.lowestUnadmitted_eq_none_iff.1 h p hp] at hout
  | some q =>
    obtain ⟨hq, hqout, hqlow⟩ := State.lowestUnadmitted_spec h
    rw [BitVec.eq_of_toNat_eq (Nat.le_antisymm (hqlow p hp hout) (hlow q hq hqout))]

/-- Where no accessed byte violates its segment, the lowest address not admitted is reported as #PF. -/
theorem memoryStop_of_lowestUnadmitted {f : Form} {o : Operands} {bcast : Bool} {a : Addr} {s : State} {p : Word}
    (hseg : ∀ k ∈ accessedBytes f o bcast s, segmentViolation f o bcast a s k = false)
    (h : s.lowestUnadmitted ((accessedBytes f o bcast s).map (operandByte f o bcast a s)) = some p) :
    memoryStop f o bcast a s = some (s.raise (.memFault (.notAdmitted p (s.pageFaultCode p)))) := by
  have hany : (accessedBytes f o bcast s).any (segmentViolation f o bcast a s) = false :=
    List.any_eq_false.2 fun k hk => by simp [hseg k hk]
  simp [memoryStop, hany, h]

/-- The bits of a page-fault code that 60_exceptions.md R199 fixes: W/R and I/D are 0, U/S is 1 exactly at CPL 3. -/
theorem State.pageFaultCode_fixed_bits (s : State) (a : Word) :
    (s.pageFaultCode a).getLsbD 1 = false ∧ (s.pageFaultCode a).getLsbD 4 = false ∧
      ((s.pageFaultCode a).getLsbD 2 = true ↔ s.cpl = 3) := by
  unfold State.pageFaultCode
  split_ifs with h <;> simp [h]

/-- Settles O51: the byte's address is the lowest one not admitted, so it is the one reported. -/
theorem unadmittedOperandFaults : Obligations.UnadmittedOperandFaults := by
  intro f o bcast a s i hsrc henter hseg hi hout hlow
  have hreported := State.lowestUnadmitted_eq_some (List.mem_map_of_mem hi) hout (List.forall_mem_map.2 hlow)
  exact ⟨_, _, exec_eq_outcome_of_memoryStop hsrc henter (memoryStop_of_lowestUnadmitted hseg hreported), rfl, rfl,
    rfl, s.pageFaultCode_fixed_bits _⟩

/-! ## The saved instruction pointer -/

/-- Only a fault has a fault as its outcome. -/
theorem Stop.outcome_eq_fault_iff {stop : Stop} {r : Fault} : stop.outcome = .fault r ↔ stop = .fault r := by
  cases stop <;> simp [Stop.outcome]

/-- A fault of undefined bytes saves the instruction's address. -/
theorem undefinedEncoding_savedPc {s : State} {n : Nat} {r : Fault} (h : s.undefinedEncoding n = .fault r) :
    r.savedPc = s.pc := by
  unfold State.undefinedEncoding at h
  split_ifs at h
  obtain rfl : Fault.invalidOpcode s.pc = r := by simpa [State.raise] using h
  rfl

/-- Settles O54: a fault of a step is one of entry, of the source or of undefined bytes. -/
theorem faultsSaveTheInstructionAddress : Obligations.FaultsSaveTheInstructionAddress := by
  intro s r h
  obtain ⟨i, -, hs⟩ | ⟨n, -, hs⟩ | ⟨_, -, q, hs⟩ := step_cases s
  · rw [hs] at h
    obtain ⟨stop, hstop, ho⟩ | ⟨-, stop, hstop, ho⟩ | ⟨-, -, ho⟩ := execVrsqrt14pd_cases i.form i.operands s
    · obtain rfl := Stop.outcome_eq_fault_iff.1 (ho ▸ h)
      exact entryStop_savedPc hstop
    · obtain rfl := Stop.outcome_eq_fault_iff.1 (ho ▸ h)
      exact sourceStop_savedPc hstop
    · simp [ho] at h
  · exact undefinedEncoding_savedPc (Stop.outcome_eq_fault_iff.1 (hs ▸ h))
  · simp [hs] at h

/-! ## Privilege -/

/-- Entry does not ask about the privilege level. -/
theorem Enterable.withCpl {f : Form} {o : Operands} {s : State} (h : Enterable f o s) (c : Fin 4) :
    Enterable f o { s with cpl := c } :=
  ⟨h.mode, h.enabled, h.avx512f, h.avx512vl, h.ts, h.text, h.length, h.masking, h.fits⟩

/-- With CR0.AM = 0 the source can be read at every privilege level alike: only the alignment check asks about it. -/
theorem SourceReadable.withCpl {f : Form} {o : Operands} {s : State} (ham : s.cr0Am = false)
    (h : SourceReadable f o s) (c : Fin 4) : SourceReadable f o { s with cpl := c } := by
  cases hsrc : o.src with
  | reg r => exact sourceReadable_of_reg hsrc f _
  | mem bcast a =>
    obtain ⟨hseg, hadmit, hord, -⟩ := (sourceReadable_mem_iff hsrc).1 h
    have hac : State.acEnabled { s with cpl := c } = false := by simp [State.acEnabled, ham]
    exact (sourceReadable_mem_iff hsrc).2 ⟨hseg, hadmit, hord, fun _ hon => absurd hon (by simp [hac])⟩

/-- The next state does not depend on the privilege level but for that level. -/
theorem completed_withCpl (f : Form) (o : Operands) (s : State) (c : Fin 4) :
    completed f o { s with cpl := c } = { completed f o s with cpl := c } := rfl

/-- Settles O34: at another level the instruction is entered and its source read as before. -/
theorem privilegeDoesNotMatter : Obligations.PrivilegeDoesNotMatter := by
  intro i s t c ham h
  obtain ⟨henter, hread, rfl⟩ := exec_eq_next_iff.1 h
  exact exec_eq_next_iff.2 ⟨henter.withCpl c, hread.withCpl ham c, (completed_withCpl _ _ s c).symm⟩

end Sys2Proof.Machine

/-! # Proofs: the launch and the reset state

The facts of the family 70_reset_and_hazards.md. A launched state gives every condition of entry that speaks of the
state (`Launched.enterable`), and its text begins with the first instruction's encoding, which decodes to it
(`Launched.decode_eq`). The reset state is in real-address mode, where no instruction can be entered. -/

namespace Sys2Proof

/-- The conditions of a well-formed instruction. -/
theorem Instr.wf_iff {i : Instr} :
    i.wf = true ↔ i.operands.src.wf = true ∧ (i.operands.zeroing = true → i.operands.mask ≠ 0#3) ∧
      i.operands.length ≤ 15 := by
  simp [Instr.wf, Operands.wf, Machine.maskingWf_iff, Operands.lengthWf, maxLength, and_assoc]

/-- An instruction is that of its form and its operands. -/
@[simp] theorem Instr.instr_form_operands (i : Instr) : i.form.instr i.operands = i := by cases i <;> rfl

/-- Both modes in which the instruction is valid read its bytes as EVEX, 32-bit mode where it can name the operands: R
and X are then 0 (30_encoding.md R82, R88). -/
theorem Instr.readableIn_of_fits32 {i : Instr} {m : Mode} (hm : m = .mode64 ∨ m = .mode32)
    (h32 : m = .mode32 → i.operands.fits32 = true) : i.ReadableIn m := by
  refine hm.imp_right fun hm32 => ?_
  have hfits := h32 hm32
  simp only [Operands.fits32, Operands.lowRegisters, Bool.and_eq_true, Bool.not_eq_true'] at hfits
  obtain ⟨⟨⟨⟨hr, -⟩, hx⟩, -⟩, -⟩ := hfits
  exact ⟨hr, hx⟩

end Sys2Proof

namespace Sys2Proof.Machine

/-- Settles O13: the first case of `step`. -/
theorem stepRunsDecodedInstruction : Obligations.StepRunsDecodedInstruction := by
  intro s i h
  rw [step, h]

/-! ## The launch -/

/-- The launch premises are the conditions of entry that speak of the state alone (70_reset_and_hazards.md R231). -/
theorem Launched.enterable {i : Instr} {program : List Instr} {s : State} (h : Launched (i :: program) s)
    (hwf : i.wf = true) (hrange : s.textInRange i.operands.length = true)
    (h32 : s.mode = .mode32 → i.operands.fits32 = true) : Enterable i.form i.operands s := by
  obtain ⟨-, hmask, hlen⟩ := Instr.wf_iff.1 hwf
  have hvl : i.form = .zmm ∨ s.part.avx512vl = true :=
    or_iff_not_imp_left.2 fun hz => h.avx512vl ⟨i, List.mem_cons_self, hz⟩
  exact ⟨h.mode, h.enabled, h.avx512f, hvl, h.ts, hrange, hlen, hmask, h32⟩

/-- The text of a launched state decodes to the first instruction of the program. -/
theorem Launched.decode_eq {i : Instr} {program : List Instr} {s : State} (h : Launched (i :: program) s)
    (hwf : i.wf = true) (h32 : s.mode = .mode32 → i.operands.fits32 = true) : decode s.mode s.text = .instr i := by
  obtain ⟨rest, htext⟩ := h.text
  have hprefix : encode i <+: s.text := ⟨program.flatMap encode ++ rest, by simp [htext]⟩
  exact decode_eq_instr_iff.2 ⟨hprefix, (Instr.wf_iff.1 hwf).1, Instr.readableIn_of_fits32 h.mode h32⟩

/-- Settles O14: the step is the decoded instruction's execution, which is entered, reads its source and completes. -/
theorem launchedProgramRunsItsFirstInstruction : Obligations.LaunchedProgramRunsItsFirstInstruction := by
  intro i program s h hwf hrange h32 hread
  have hexec : exec i s = .next (completed i.form i.operands s) :=
    exec_eq_next_iff.2 ⟨h.enterable hwf hrange h32, hread, rfl⟩
  refine ⟨_, (stepRunsDecodedInstruction s i (h.decode_eq hwf h32)).trans hexec, hexec, ?_⟩
  rw [completed_pc, Laws.encode_length]

/-! ## The reset state -/

/-- In a mode in which the instruction is not valid no step completes (60_exceptions.md R209). -/
theorem step_ne_next_of_modeValid_eq_false {s : State} (h : s.modeValid = false) (t : State) : step s ≠ .next t := by
  intro hstep
  obtain hm | hm := (stepsCompleteOnlyWhenEnabled s t hstep).1 <;> simp [State.modeValid, hm] at h

/-- In such a mode a decoded instruction of at most 15 bytes, its text in range, raises #UD (60_exceptions.md R193). -/
theorem step_eq_invalidOpcode_of_modeValid_eq_false {s : State} {i : Instr} (h : s.modeValid = false)
    (hdecode : decode s.mode s.text = .instr i) (hrange : s.textInRange i.operands.length = true)
    (hlen : i.operands.length ≤ 15) : step s = .fault (.invalidOpcode s.pc) := by
  have hstop := entryStop_of_undefinedIn hrange (undefinedIn_eq_true_iff (f := i.form).2 (Or.inl h))
  rw [if_neg (Nat.not_lt.2 hlen)] at hstop
  rw [stepRunsDecodedInstruction s i hdecode, ← i.instr_form_operands, exec_eq_outcome_of_entryStop hstop]
  rfl

/-- Settles O60: the mode is real-address mode whatever memory holds, and at the reset address 15 bytes are in range. -/
theorem afterResetTheInstructionIsUndefined : Obligations.AfterResetTheInstructionIsUndefined := by
  intro m ds
  refine ⟨step_ne_next_of_modeValid_eq_false rfl, fun i hdecode hlen =>
    step_eq_invalidOpcode_of_modeValid_eq_false rfl hdecode ?_ hlen⟩
  have hrange : State.textInRange { State.reset with mem := m, devices := ds } 15 = true := rfl
  exact State.textInRange_of_le hrange hlen

end Sys2Proof.Machine

/-! # Proofs: the limit of a flat segment

The family of the model's own choices. Outside 64-bit mode the segment's limit takes the place of the canonical form. -/

namespace Sys2Proof.Machine

/-- Outside 64-bit mode a byte violates its segment where its effective address is past the 4 GiB limit (log entry 13). -/
theorem segmentViolation_iff_of_ne_mode64 {s : State} (h : s.mode ≠ .mode64) {f : Form} {o : Operands} {bcast : Bool}
    {a : Addr} {i : Nat} :
    segmentViolation f o bcast a s i = true ↔ 2 ^ 32 ≤ (effectiveAddress f o bcast a s).toNat + i := by
  rw [segmentViolation, if_neg h, decide_eq_true_iff]

/-- Settles O50: in 32-bit mode the byte violates its segment, and the fault is the segment's. -/
theorem operandPastFlatLimitFaults : Obligations.OperandPastFlatLimitFaults := by
  intro f o bcast a s i hsrc henter hm hi hpast
  have hmode : s.mode ≠ .mode64 := by simp [hm]
  have hviolates := (segmentViolation_iff_of_ne_mode64 hmode).2 hpast
  refine ⟨_, exec_eq_outcome_of_memoryStop hsrc henter (memoryStop_of_segmentViolation hi hviolates), rfl, ?_⟩
  split_ifs <;> exact ⟨rfl, rfl⟩

end Sys2Proof.Machine
